-- ==== Sys2Proof/Word.lean ====
section
/-! DEFINITION. The two sizes of value the machine has (spec/00_scope.md R8): the 16-bit word of registers, memory and
instructions, and the byte of the host's characters and of the output stream. Arithmetic on words is `BitVec`'s own,
modulo 65536 (R9). -/

namespace Sys2Proof

/-- A word: 16 bits, bit 15 the most significant (R8). -/
abbrev Word := BitVec 16

/-- A byte: 8 bits (R8). -/
abbrev Byte := BitVec 8

end Sys2Proof
end

