-- ==== Sys2Proof/Syntax.lean ====
section
/-! DEFINITION. The instructions: one constructor per row of spec/opcode_table.json (30_encoding.md R83 and R93). The six
rows of kind trap-routine refine TRAP and the two rows of kind alias, RET and NOP, name special cases of JMP and BR; each
has a constructor of its own here (log entry 25). Bits the hardware does not examine (R86) are no operands. -/

namespace Sys2Proof

/-- The eight general registers (10_state.md R20). -/
inductive Reg
  | r0 | r1 | r2 | r3 | r4 | r5 | r6 | r7
deriving DecidableEq, Repr

/-- The sixteen dispatch targets (30_encoding.md R83, R84): fourteen opcodes and the two reserved ones, by name. Their numbers are
the parameter `Config.opcodeMap`; a reserved one is named after the number the spec gives it. -/
inductive Opcode
  | br | add | ld | st | jsr | and | ldr | str | reserved8 | not | ldi | sti | jmp | reserved13 | lea | trap
deriving DecidableEq, Repr

/-- One instruction, its operands already cut from the word and not yet extended (30_encoding.md R81, R87). -/
inductive Instr
  /-- ADD, register mode: DR, SR1, SR2 (40_operate.md R110). -/
  | addReg (dr sr1 sr2 : Reg)
  /-- ADD, immediate mode: DR, SR1, imm5 (R111). -/
  | addImm (dr sr1 : Reg) (imm5 : BitVec 5)
  /-- AND, register mode: DR, SR1, SR2 (R112). -/
  | andReg (dr sr1 sr2 : Reg)
  /-- AND, immediate mode: DR, SR1, imm5 (R113). -/
  | andImm (dr sr1 : Reg) (imm5 : BitVec 5)
  /-- NOT: DR, SR (R114). -/
  | not (dr sr : Reg)
  /-- BR: the three requested flags and offset9 (41_control.md R120). -/
  | br (n z p : Bool) (offset9 : BitVec 9)
  /-- JMP: BaseR (R121). -/
  | jmp (baseR : Reg)
  /-- JSR: offset11 (R122). -/
  | jsr (offset11 : BitVec 11)
  /-- JSRR: BaseR (R123). -/
  | jsrr (baseR : Reg)
  /-- LD: DR, offset9 (42_load_store.md R130). -/
  | ld (dr : Reg) (offset9 : BitVec 9)
  /-- LDI: DR, offset9 (R131). -/
  | ldi (dr : Reg) (offset9 : BitVec 9)
  /-- LDR: DR, BaseR, offset6 (R132). -/
  | ldr (dr baseR : Reg) (offset6 : BitVec 6)
  /-- LEA: DR, offset9 (R133). -/
  | lea (dr : Reg) (offset9 : BitVec 9)
  /-- ST: SR, offset9 (R134). -/
  | st (sr : Reg) (offset9 : BitVec 9)
  /-- STI: SR, offset9 (R135). -/
  | sti (sr : Reg) (offset9 : BitVec 9)
  /-- STR: SR, BaseR, offset6 (R136). -/
  | str (sr baseR : Reg) (offset6 : BitVec 6)
  /-- TRAP: trapvect8 (43_trap.md R150). -/
  | trap (trapvect8 : BitVec 8)
  /-- The reserved opcode 1000 (44_reserved.md R170). -/
  | reserved8
  /-- The reserved opcode 1101 (44_reserved.md R171). -/
  | reserved13
  /-- GETC, TRAP x20 (43_trap.md R152). -/
  | getc
  /-- OUT, TRAP x21 (R153). -/
  | out
  /-- PUTS, TRAP x22 (R154). -/
  | puts
  /-- IN, TRAP x23 (R155): the table's row IN, `in` being a word of Lean. -/
  | inEcho
  /-- PUTSP, TRAP x24 (R156). -/
  | putsp
  /-- HALT, TRAP x25 (R157). -/
  | halt
  /-- RET, JMP with BaseR = 7 (30_encoding.md R93). -/
  | ret
  /-- NOP, BR with n = z = p = 0 (R93); the offset is in the word and has no use. -/
  | nop (offset9 : BitVec 9)
deriving DecidableEq, Repr

end Sys2Proof
end

