-- ==== Sys2Proof/WellFormed.lean ====
section
/-! DEFINITION. Which terms of `Instr` are the name the decoder gives their words. Every field of an instruction accepts
every value (30_encoding.md R90 (e)), so the only checks are those that keep ONE name for a word that two rows of the
opcode table share: the more specific row has it (log entry 25). A term these checks refuse still has its meaning. -/

namespace Sys2Proof

/-- Is this one of the six vectors that select a routine (43_trap.md R150)? -/
def isRoutineVector (v : BitVec 8) : Bool :=
  decide (0x20 ≤ v.toNat) && decide (v.toNat ≤ 0x25)

/-- The term is the decoder's own name for its words: no BR that is spelled NOP, no JMP that is spelled RET, no TRAP that is
spelled with its routine's name (30_encoding.md R93). -/
def Instr.wellFormed : Instr → Bool
  | .br n z p _ => n || z || p
  | .jmp baseR => baseR != .r7
  | .trap v => !isRoutineVector v
  | .addReg _ _ _ => true
  | .addImm _ _ _ => true
  | .andReg _ _ _ => true
  | .andImm _ _ _ => true
  | .not _ _ => true
  | .jsr _ => true
  | .jsrr _ => true
  | .ld _ _ => true
  | .ldi _ _ => true
  | .ldr _ _ _ => true
  | .lea _ _ => true
  | .st _ _ => true
  | .sti _ _ => true
  | .str _ _ _ => true
  | .reserved8 => true
  | .reserved13 => true
  | .getc => true
  | .out => true
  | .puts => true
  | .inEcho => true
  | .putsp => true
  | .halt => true
  | .ret => true
  | .nop _ => true

end Sys2Proof
end

