-- ==== Sys2Proof/Decode.lean ====
section
/-! DEFINITION. The decoder and dispatcher's choice (spec/30_encoding.md R80 to R89), total on words; the same over table
words, rejecting by name what is not one 16-bit word; the encoder, written from the same formats; and the opcode table's
mask and match columns, for statements that hold the two against the table.

The opcode numbers are the parameter `Config.opcodeMap`, which stands here. -/

namespace Sys2Proof

/-! ## The opcode numbers -/

/-- `OPCODE_MAP`, the 4-bit value of each of the sixteen opcodes (00_scope.md R7, 30_encoding.md R83, R84). PRESUMED (log entries
1 and 2): the numbers are the spec's, from general knowledge. -/
def Config.opcodeMap : Opcode → BitVec 4
  | .br => 0x0
  | .add => 0x1
  | .ld => 0x2
  | .st => 0x3
  | .jsr => 0x4
  | .and => 0x5
  | .ldr => 0x6
  | .str => 0x7
  | .reserved8 => 0x8
  | .not => 0x9
  | .ldi => 0xA
  | .sti => 0xB
  | .jmp => 0xC
  | .reserved13 => 0xD
  | .lea => 0xE
  | .trap => 0xF

/-- Every dispatch target, once. -/
def Opcode.all : List Opcode :=
  [.br, .add, .ld, .st, .jsr, .and, .ldr, .str, .reserved8, .not, .ldi, .sti, .jmp, .reserved13, .lea, .trap]

/-- The opcode whose number this is: the exact match of 30_encoding.md R82. There always is one (Laws/Decode.lean), so the
default is never taken. -/
def opcodeOf (number : BitVec 4) : Opcode :=
  (Opcode.all.find? fun o => Config.opcodeMap o == number).getD .trap

/-! ## Fields -/

/-- The source's `name(width)@p`: the bits `p + width - 1 : p` of the instruction word (00_scope.md R8). -/
def field (width p : Nat) (x : Word) : BitVec width :=
  x.extractLsb' p width

/-- A field's value laid at bit `p` of a word of zeros. -/
def fieldAt {width : Nat} (v : BitVec width) (p : Nat) : Word :=
  v.setWidth 16 <<< p

/-- One bit of the instruction word (00_scope.md R8). -/
def bitAt (p : Nat) (x : Word) : Bool :=
  x.getLsbD p

/-- A 3-bit field selects any of the eight registers (10_state.md R20). -/
def Reg.ofBits (b : BitVec 3) : Reg :=
  match b.toNat with
  | 0 => .r0
  | 1 => .r1
  | 2 => .r2
  | 3 => .r3
  | 4 => .r4
  | 5 => .r5
  | 6 => .r6
  | _ => .r7

/-- The register's number as a 3-bit field. -/
def Reg.toBits : Reg → BitVec 3
  | .r0 => 0
  | .r1 => 1
  | .r2 => 2
  | .r3 => 3
  | .r4 => 4
  | .r5 => 5
  | .r6 => 6
  | .r7 => 7

/-- The register a word's 3-bit field at `p` selects. -/
def regAt (p : Nat) (x : Word) : Reg :=
  Reg.ofBits (field 3 p x)

/-! ## Decoding -/

/-- BR's opcode: BR, and NOP where no flag is requested (41_control.md R120; bit order n, z, p by R88, log entry 18). -/
def decodeBr (x : Word) : Instr :=
  if bitAt 11 x || bitAt 10 x || bitAt 9 x then
    .br (bitAt 11 x) (bitAt 10 x) (bitAt 9 x) (field 9 0 x)
  else
    .nop (field 9 0 x)

/-- ADD's opcode: the mode bit 5 chooses the form (30_encoding.md R89). -/
def decodeAdd (x : Word) : Instr :=
  if bitAt 5 x then .addImm (regAt 9 x) (regAt 6 x) (field 5 0 x)
  else .addReg (regAt 9 x) (regAt 6 x) (regAt 0 x)

/-- AND's opcode: the mode bit 5 chooses the form (30_encoding.md R89). -/
def decodeAnd (x : Word) : Instr :=
  if bitAt 5 x then .andImm (regAt 9 x) (regAt 6 x) (field 5 0 x)
  else .andReg (regAt 9 x) (regAt 6 x) (regAt 0 x)

/-- JSR's opcode: bit 11 chooses JSR or JSRR (30_encoding.md R89). -/
def decodeJsr (x : Word) : Instr :=
  if bitAt 11 x then .jsr (field 11 0 x) else .jsrr (regAt 6 x)

/-- JMP's opcode: JMP, and RET where BaseR is 7 (30_encoding.md R93). -/
def decodeJmp (x : Word) : Instr :=
  if regAt 6 x = .r7 then .ret else .jmp (regAt 6 x)

/-- TRAP's opcode: the low eight bits choose the routine (43_trap.md R150). -/
def decodeTrap (x : Word) : Instr :=
  match (field 8 0 x).toNat with
  | 0x20 => .getc
  | 0x21 => .out
  | 0x22 => .puts
  | 0x23 => .inEcho
  | 0x24 => .putsp
  | 0x25 => .halt
  | _ => .trap (field 8 0 x)

/-- `Execute`'s choice (30_encoding.md R82, R83, R85): the opcode is the one whose number the top four bits are, and every word
has a row. -/
def decode (x : Word) : Instr :=
  match opcodeOf (field 4 12 x) with
  | .br => decodeBr x
  | .add => decodeAdd x
  | .ld => .ld (regAt 9 x) (field 9 0 x)
  | .st => .st (regAt 9 x) (field 9 0 x)
  | .jsr => decodeJsr x
  | .and => decodeAnd x
  | .ldr => .ldr (regAt 9 x) (regAt 6 x) (field 6 0 x)
  | .str => .str (regAt 9 x) (regAt 6 x) (field 6 0 x)
  | .reserved8 => .reserved8
  | .not => .not (regAt 9 x) (regAt 6 x)
  | .ldi => .ldi (regAt 9 x) (field 9 0 x)
  | .sti => .sti (regAt 9 x) (field 9 0 x)
  | .jmp => decodeJmp x
  | .reserved13 => .reserved13
  | .lea => .lea (regAt 9 x) (field 9 0 x)
  | .trap => decodeTrap x

/-- Why a number of bits is no instruction: raised by `decodeBits` alone. The machine itself never meets one, since a fetch
reads a whole word (30_encoding.md R80). -/
inductive DecodeError
  /-- No bits at all, or more than the one 16-bit word an instruction is. -/
  | notOneWord
  /-- The number does not fit the bits it is said to have. -/
  | bitsAboveLength
deriving DecidableEq, Repr

/-- Decode `nbits` bits whose number is `w`. Every instruction is one word of 16 bits (30_encoding.md R80), so 16 is the one
length the hardware has. DESIGN CHOICE (log entry 28): a string of 1 to 15 bits, which is no instruction of the hardware, is
completed to one word with zeros above and decoded as that word; no bits, more than 16 bits, and a number that does not fit
its bits are errors. -/
def decodeBits (nbits w : Nat) : Except DecodeError Instr :=
  if nbits = 0 ∨ 16 < nbits then .error .notOneWord
  else if 2 ^ nbits ≤ w then .error .bitsAboveLength
  else .ok (decode (BitVec.ofNat 16 w))

/-- The instruction the decoder reads from an instruction of `nbits` bits numbered as spec/opcode_table.json numbers them:
one 16-bit word, bit 0 its least significant; other lengths as `decodeBits` says (DESIGN CHOICE, log entry 28). -/
def decodeTableWord (nbits w : Nat) : Option Instr :=
  match decodeBits nbits w with
  | .ok i => some i
  | .error _ => none

/-! ## Encoding -/

/-- The opcode's number in the top four bits of a word of zeros (30_encoding.md R82). -/
def opcodeField (o : Opcode) : Word :=
  fieldAt (Config.opcodeMap o) 12

/-- The word an assembler writes (30_encoding.md R81, R83, R92, R93): NOT with ones in its ignored bits, every other ignored
bit zero. PRESUMED (log entry 17): the ignored bits' values are from general knowledge. -/
def encode : Instr → Word
  | .addReg dr sr1 sr2 => opcodeField .add ||| fieldAt dr.toBits 9 ||| fieldAt sr1.toBits 6 ||| fieldAt sr2.toBits 0
  | .addImm dr sr1 imm5 =>
      opcodeField .add ||| fieldAt dr.toBits 9 ||| fieldAt sr1.toBits 6 ||| fieldAt 1#1 5 ||| fieldAt imm5 0
  | .andReg dr sr1 sr2 => opcodeField .and ||| fieldAt dr.toBits 9 ||| fieldAt sr1.toBits 6 ||| fieldAt sr2.toBits 0
  | .andImm dr sr1 imm5 =>
      opcodeField .and ||| fieldAt dr.toBits 9 ||| fieldAt sr1.toBits 6 ||| fieldAt 1#1 5 ||| fieldAt imm5 0
  | .not dr sr => opcodeField .not ||| fieldAt dr.toBits 9 ||| fieldAt sr.toBits 6 ||| fieldAt 0x3F#6 0
  | .br n z p offset9 =>
      opcodeField .br ||| fieldAt (BitVec.ofBool n) 11 ||| fieldAt (BitVec.ofBool z) 10 |||
        fieldAt (BitVec.ofBool p) 9 ||| fieldAt offset9 0
  | .jmp baseR => opcodeField .jmp ||| fieldAt baseR.toBits 6
  | .jsr offset11 => opcodeField .jsr ||| fieldAt 1#1 11 ||| fieldAt offset11 0
  | .jsrr baseR => opcodeField .jsr ||| fieldAt baseR.toBits 6
  | .ld dr offset9 => opcodeField .ld ||| fieldAt dr.toBits 9 ||| fieldAt offset9 0
  | .ldi dr offset9 => opcodeField .ldi ||| fieldAt dr.toBits 9 ||| fieldAt offset9 0
  | .ldr dr baseR offset6 =>
      opcodeField .ldr ||| fieldAt dr.toBits 9 ||| fieldAt baseR.toBits 6 ||| fieldAt offset6 0
  | .lea dr offset9 => opcodeField .lea ||| fieldAt dr.toBits 9 ||| fieldAt offset9 0
  | .st sr offset9 => opcodeField .st ||| fieldAt sr.toBits 9 ||| fieldAt offset9 0
  | .sti sr offset9 => opcodeField .sti ||| fieldAt sr.toBits 9 ||| fieldAt offset9 0
  | .str sr baseR offset6 =>
      opcodeField .str ||| fieldAt sr.toBits 9 ||| fieldAt baseR.toBits 6 ||| fieldAt offset6 0
  | .trap trapvect8 => opcodeField .trap ||| fieldAt trapvect8 0
  | .reserved8 => opcodeField .reserved8
  | .reserved13 => opcodeField .reserved13
  | .getc => opcodeField .trap ||| fieldAt 0x20#8 0
  | .out => opcodeField .trap ||| fieldAt 0x21#8 0
  | .puts => opcodeField .trap ||| fieldAt 0x22#8 0
  | .inEcho => opcodeField .trap ||| fieldAt 0x23#8 0
  | .putsp => opcodeField .trap ||| fieldAt 0x24#8 0
  | .halt => opcodeField .trap ||| fieldAt 0x25#8 0
  | .ret => opcodeField .jmp ||| fieldAt 7#3 6
  | .nop offset9 => opcodeField .br ||| fieldAt offset9 0

/-! ## The opcode table's own columns -/

/-- The columns `mask` and `match` of the instruction's row in spec/opcode_table.json, copied from the table as
it stands. The machine does not use it: it is what statements hold the decoder, the encoder and `Config.opcodeMap` against. -/
def Instr.tableRow : Instr → Word × Word
  | .addReg _ _ _ => (0xF020, 0x1000)
  | .addImm _ _ _ => (0xF020, 0x1020)
  | .andReg _ _ _ => (0xF020, 0x5000)
  | .andImm _ _ _ => (0xF020, 0x5020)
  | .not _ _ => (0xF000, 0x9000)
  | .br _ _ _ _ => (0xF000, 0x0000)
  | .jmp _ => (0xF000, 0xC000)
  | .jsr _ => (0xF800, 0x4800)
  | .jsrr _ => (0xF800, 0x4000)
  | .ld _ _ => (0xF000, 0x2000)
  | .ldi _ _ => (0xF000, 0xA000)
  | .ldr _ _ _ => (0xF000, 0x6000)
  | .lea _ _ => (0xF000, 0xE000)
  | .st _ _ => (0xF000, 0x3000)
  | .sti _ _ => (0xF000, 0xB000)
  | .str _ _ _ => (0xF000, 0x7000)
  | .trap _ => (0xF000, 0xF000)
  | .reserved8 => (0xF000, 0x8000)
  | .reserved13 => (0xF000, 0xD000)
  | .getc => (0xF0FF, 0xF020)
  | .out => (0xF0FF, 0xF021)
  | .puts => (0xF0FF, 0xF022)
  | .inEcho => (0xF0FF, 0xF023)
  | .putsp => (0xF0FF, 0xF024)
  | .halt => (0xF0FF, 0xF025)
  | .ret => (0xF1C0, 0xC1C0)
  | .nop _ => (0xFE00, 0x0000)

/-- The bits of the word that the instruction's handler does not examine (30_encoding.md R86, log entry 16). -/
def Instr.ignoredBits : Instr → Word
  | .addReg _ _ _ => 0x0018
  | .addImm _ _ _ => 0x0000
  | .andReg _ _ _ => 0x0018
  | .andImm _ _ _ => 0x0000
  | .not _ _ => 0x003F
  | .br _ _ _ _ => 0x0000
  | .jmp _ => 0x0E3F
  | .jsr _ => 0x0000
  | .jsrr _ => 0x063F
  | .ld _ _ => 0x0000
  | .ldi _ _ => 0x0000
  | .ldr _ _ _ => 0x0000
  | .lea _ _ => 0x0000
  | .st _ _ => 0x0000
  | .sti _ _ => 0x0000
  | .str _ _ _ => 0x0000
  | .trap _ => 0x0F00
  | .reserved8 => 0x0FFF
  | .reserved13 => 0x0FFF
  | .getc => 0x0F00
  | .out => 0x0F00
  | .puts => 0x0F00
  | .inEcho => 0x0F00
  | .putsp => 0x0F00
  | .halt => 0x0F00
  | .ret => 0x0E3F
  | .nop _ => 0x0000

end Sys2Proof
end

