-- ==== Sys2Proof/Config.lean ====
section
/-! DEFINITION. What is fixed for the machine: the parameters of spec/00_scope.md R7 with the values the spec takes, and
the values the spec leaves OPEN as constants without a body. Two more parameters of R7 stand elsewhere: `RESET_COND` in
Machine/State.lean, where its type is, and `OPCODE_MAP`, as `Config.opcodeMap`, in Decode.lean, beside the decoder and the
encoder that use it. -/

namespace Sys2Proof.Config

/-- `KBSR_ADDR`, the address of the keyboard status word (R7, 20_memory.md R53).
PRESUMED (log entry 3): the number is the spec's, from general knowledge. -/
def kbsrAddr : Word := 0xFE00

/-- `KBDR_ADDR`, the address of the keyboard data word (R7, 20_memory.md R54).
PRESUMED (log entry 3): the number is the spec's, from general knowledge. -/
def kbdrAddr : Word := 0xFE02

/-- `PC_START`, where the first instruction is fetched (R7, 70_reset_and_hazards.md R214). DEDUCED (log entry 4). -/
def pcStart : Word := 0x3000

/-- `RESET_GPR`, the value of R0 to R7 at the first step (R7, 10_state.md R39). DESIGN CHOICE (log entry 5). -/
def resetGpr : Word := 0x0000

/-- The two readings of "sets the status word's top bit" (20_memory.md R58). -/
inductive KbsrSetMode
  | or
  | assign
deriving DecidableEq, Repr

/-- `KBSR_SET_MODE`: the rule is `or` (20_memory.md R58). DESIGN CHOICE of the spec (log entry 8). -/
def kbsrSetMode : KbsrSetMode := .or

/-- How many words PUTS or PUTSP visit in one step of the model: all the addresses there are, once. A string that has not
ended by then goes on in the model's next step. DESIGN CHOICE (log entry 13). -/
def stringLap : Nat := 65536

/-- `IN_PROMPT`, the bytes IN writes before it reads (43_trap.md R155): OPEN, no value is taken (log entry 9). -/
opaque inPrompt : List Byte

/-- `HALT_NOTICE`, the bytes HALT writes (43_trap.md R157): OPEN, no value is taken (log entry 9). -/
opaque haltNotice : List Byte

/-- The host's answer to the n-th request beyond the script (10_state.md R34, R35): none, no character is ready now; some
c, a character is ready and it is c. Free (log entry 10). -/
opaque freeAnswer : Nat → Option Byte

end Sys2Proof.Config
end

