-- ==== Sys2Proof/Machine/State.lean ====
section
/-! DEFINITION. Everything the machine holds (spec/10_state.md), as plain data, its reset state, and the reasons a step can
end without a next state. -/

namespace Sys2Proof.Machine

/-- The condition flag register holds exactly one of three values (10_state.md R24). -/
inductive Cond
  /-- NEGATIVE -/
  | n
  /-- ZERO -/
  | z
  /-- POSITIVE -/
  | p
deriving DecidableEq, Repr

/-- The eight general registers, 16 bits each (10_state.md R20). -/
structure RegFile where
  r0 : Word
  r1 : Word
  r2 : Word
  r3 : Word
  r4 : Word
  r5 : Word
  r6 : Word
  r7 : Word
deriving DecidableEq, Repr

/-- One listed word of memory: its address as a number, and the word. The addressable unit of this hardware is the whole
16-bit word and no instruction sees a byte of it (10_state.md R28, 20_memory.md R59; log entry 23). -/
abbrev Cell := Nat × Word

/-- The 65536 words of memory (10_state.md R28): the words that are not `0x0000`, by rising address. An address that is not
listed reads as `0x0000`, the reset contents. -/
structure Memory where
  cells : List Cell
deriving DecidableEq, Repr

/-- One answer of the host to the question whether a character is ready (10_state.md R34, R35; log entry 10): none, "no key"
now; some c, a key, and the character that `read_char` returns is c. -/
abbrev HostAnswer := Option Byte

/-- A trap routine whose step has not come to its end (10_state.md R33 (c), 43_trap.md R159, 60_exceptions.md R195). -/
inductive Routine
  /-- GETC waits for `Host.read_char` (log entry 11). -/
  | getc
  /-- IN waits for `Host.read_char`; its prompt has been written (log entry 11). -/
  | inEcho
  /-- PUTS goes on at this pointer (log entry 13). -/
  | puts (a : Word)
  /-- PUTSP goes on at this pointer (log entry 13). -/
  | putsp (a : Word)
deriving DecidableEq, Repr

/-- The machine, its output stream, and what the environment holds for it. -/
structure State where
  /-- R0 to R7 (10_state.md R20). -/
  regs : RegFile
  /-- The program counter, a word address (R22). -/
  pc : Word
  /-- The condition flag register (R24). -/
  cond : Cond
  /-- The lifecycle flag (R27). -/
  running : Bool
  /-- Memory, the two keyboard words included (R28; 20_memory.md R53, R54). -/
  mem : Memory
  /-- Every byte written since the first step, in order (R36). -/
  output : List Byte
  /-- The trap routine of the step in progress, if it has not come to its end (60_exceptions.md R195). -/
  busy : Option Routine
  /-- The host has raised its abort (60_exceptions.md R186). Only the environment sets it: no transition of the model does, and
  it is false at reset (log entry 14). -/
  abortRequested : Bool
  /-- The host's coming answers as far as they are known, oldest first (R34, R35; log entry 10). -/
  hostScript : List HostAnswer
  /-- The model's own counter of answers taken beyond the script; it picks the next free value (log entry 10). -/
  hostCalls : Nat
deriving DecidableEq, Repr

/-- Why a step ends the run without a next state. -/
inductive Fault
  /-- The host's abort (60_exceptions.md R183, R186): raised by `step` alone, between two steps or in the blocking read of GETC
  or IN, when the host has asked for it. The machine is discarded and no final state is defined, as the spec says. Safe: no instruction raises it
  (log entry 14). -/
  | hostAbort
deriving DecidableEq, Repr

/-- Why an instruction has no meaning. -/
inductive Refusal
  /-- The dispatcher's answer for an instruction without a meaning. No arm gives it: every instruction has its meaning.
  Safe. -/
  | notModelled (mnemonic : String)
deriving DecidableEq, Repr

/-- `RESET_COND` (00_scope.md R7, 10_state.md R39). DESIGN CHOICE of the spec, the source being silent (log entry 6). -/
def resetCond : Cond := .z

/-- The machine as created, before an image is loaded (10_state.md R39, 70_reset_and_hazards.md R210): memory zero, `pc` at
the start address, running, nothing written. R0 to R7 by log entry 5, `cond` by 6, `running` by 7, the host's answers by 10.
The spec gives the two remaining fields no value, the model having added them. DESIGN CHOICE: no routine is unfinished (log
entries 11 and 13), and the host has asked for no abort (log entry 14). -/
def State.reset : State where
  regs := { r0 := Config.resetGpr, r1 := Config.resetGpr, r2 := Config.resetGpr, r3 := Config.resetGpr,
            r4 := Config.resetGpr, r5 := Config.resetGpr, r6 := Config.resetGpr, r7 := Config.resetGpr }
  pc := Config.pcStart
  cond := resetCond
  running := true
  mem := { cells := [] }
  output := []
  busy := none
  abortRequested := false
  hostScript := []
  hostCalls := 0

end Sys2Proof.Machine
end

