-- ==== Sys2Proof/Machine/Ops.lean ====
section
/-! DEFINITION. The named operations over the state: registers (spec/10_state.md R20), the stored words of memory (R28), the
host (R34 to R36), and the two memory operations and the fetch every instruction uses (20_memory.md R52, R55; R30).

Taking an exception is no operation here: the hardware takes none (60_exceptions.md R180, R184, R185). -/

namespace Sys2Proof.Machine

/-! ## Registers -/

/-- `x[i]` (10_state.md R20). -/
def RegFile.get (f : RegFile) : Reg → Word
  | .r0 => f.r0
  | .r1 => f.r1
  | .r2 => f.r2
  | .r3 => f.r3
  | .r4 => f.r4
  | .r5 => f.r5
  | .r6 => f.r6
  | .r7 => f.r7

/-- `x[i] <- v` in the register file (R20): no register is hardwired. -/
def RegFile.set (f : RegFile) (r : Reg) (v : Word) : RegFile :=
  match r with
  | .r0 => { f with r0 := v }
  | .r1 => { f with r1 := v }
  | .r2 => { f with r2 := v }
  | .r3 => { f with r3 := v }
  | .r4 => { f with r4 := v }
  | .r5 => { f with r5 := v }
  | .r6 => { f with r6 := v }
  | .r7 => { f with r7 := v }

/-- `x[i]` (00_scope.md R11). -/
def State.reg (s : State) (r : Reg) : Word :=
  s.regs.get r

/-- `x[i] <- v`: "nothing else changes (in particular COND does not)" (R11). -/
def State.setReg (s : State) (r : Reg) (v : Word) : State :=
  { s with regs := s.regs.set r v }

/-- `pc <- target` (R11). -/
def State.setPc (s : State) (target : Word) : State :=
  { s with pc := target }

/-! ## The stored words -/

/-- What an address that is not listed reads as: memory is "zero-initialized" (10_state.md R28, R39). -/
def Memory.unlisted : Word := 0x0000

/-- The word listed at address `k`, or what an unlisted address reads as. -/
def Memory.readCells : List Cell → Nat → Word
  | [], _ => Memory.unlisted
  | (a, v) :: rest, k => if k = a then v else Memory.readCells rest k

/-- The list without any entry at `k`. -/
def Memory.eraseCells : List Cell → Nat → List Cell
  | [], _ => []
  | (a, v) :: rest, k => if k = a then Memory.eraseCells rest k else (a, v) :: Memory.eraseCells rest k

/-- The list with the entry `(k, v)` at its place. -/
def Memory.insertCells : List Cell → Nat → Word → List Cell
  | [], k, v => [(k, v)]
  | (a, w) :: rest, k, v =>
      if k < a then (k, v) :: (a, w) :: rest
      else if k = a then (k, v) :: rest
      else (a, w) :: Memory.insertCells rest k v

/-- `mem[a]`, the stored word with no side effect (10_state.md R28). -/
def Memory.read (m : Memory) (a : Word) : Word :=
  Memory.readCells m.cells a.toNat

/-- `mem[a] <- v` (20_memory.md R55). Writing what an unlisted address reads as takes the entry away. -/
def Memory.write (m : Memory) (a v : Word) : Memory :=
  if v = Memory.unlisted then { cells := Memory.eraseCells m.cells a.toNat }
  else { cells := Memory.insertCells m.cells a.toNat v }

/-- The list is in canonical form from address `lo` on: addresses strictly rising and below 65536, no entry equal to what an
unlisted address reads as. -/
def Memory.cellsWf (lo : Nat) : List Cell → Bool
  | [] => true
  | (a, v) :: rest => decide (lo ≤ a) && decide (a < 65536) && decide (v ≠ Memory.unlisted) && Memory.cellsWf (a + 1) rest

/-- The one canonical form of memory. -/
def Memory.wf (m : Memory) : Bool :=
  Memory.cellsWf 0 m.cells

/-- `MemWrite(a, 1, v)`: an unconditional store without a side effect, the keyboard words included (20_memory.md R55). -/
def memWrite (a v : Word) (s : State) : State :=
  { s with mem := s.mem.write a v }

/-! ## The host -/

/-- `Out(b)` for each byte in order (10_state.md R36): the stream grows at its end. -/
def State.emit (s : State) (bytes : List Byte) : State :=
  { s with output := s.output ++ bytes }

/-- Ask the host whether a character is ready, and take it if one is: the script's next answer, and a free one beyond the
script (log entry 10). For a status read this is `Host.key_available()` and, where it answers true, the `Host.read_char()`
that follows at once and returns (10_state.md R34, R35; 92_eei_decisions.md D24). For GETC and IN it is one look of the
blocking `Host.read_char()`: none means that the byte has not arrived yet (R35; log entry 11). -/
def askHost (s : State) : HostAnswer × State :=
  match s.hostScript with
  | answer :: rest => (answer, { s with hostScript := rest })
  | [] => (Config.freeAnswer s.hostCalls, { s with hostCalls := s.hostCalls + 1 })

/-! ## Reading memory -/

/-- How a poll that found a key sets the status word's top bit (20_memory.md R58). -/
def setReady (mode : Config.KbsrSetMode) (w : Word) : Word :=
  match mode with
  | .or => w ||| 0x8000
  | .assign => 0x8000

/-- The side effect of a read of the keyboard status address (20_memory.md R52): poll; with a key, the status word's top bit
is set and the character, zero-extended, becomes the data word; without one, the status word is cleared. -/
def pollKeyboard (s : State) : State :=
  match askHost s with
  | (some c, t) =>
      memWrite Config.kbdrAddr (c.setWidth 16)
        (memWrite Config.kbsrAddr (setReady Config.kbsrSetMode (t.mem.read Config.kbsrAddr)) t)
  | (none, t) => memWrite Config.kbsrAddr 0x0000 t

/-- `MemRead(a, 1)` (20_memory.md R52): the word, as it stands after the side effect, and the state. -/
def memRead (a : Word) (s : State) : Word × State :=
  let t := if a = Config.kbsrAddr then pollKeyboard s else s
  (t.mem.read a, t)

/-- The fetch and the increment (10_state.md R30, R31): an ordinary `MemRead` at `pc`, then `pc + 1` modulo 65536 (R23). -/
def fetch (s : State) : Word × State :=
  let r := memRead s.pc s
  (r.1, r.2.setPc (r.2.pc + 1))

end Sys2Proof.Machine
end

