-- ==== Sys2Proof/Machine/Flags.lean ====
section
/-! DEFINITION. The one flag computation there is, `setcc` (spec/10_state.md R25), and the write of a value-defining
instruction's result (R26, 00_scope.md R12). There is no carry and no overflow flag (R9, R24). -/

namespace Sys2Proof.Machine

/-- ZERO if the value is 0, NEGATIVE if its high bit is set, otherwise POSITIVE (10_state.md R25). -/
def condOf (v : Word) : Cond :=
  if v = 0x0000 then .z else if v.msb then .n else .p

/-- `setcc(i)`: set `cond` from the current value of the register (R25). -/
def setcc (r : Reg) (s : State) : State :=
  { s with cond := condOf (s.reg r) }

/-- The end of every value-defining instruction: write DR, then `setcc(DR)` as the last action (R26). -/
def defineReg (dr : Reg) (v : Word) (s : State) : State :=
  setcc dr (s.setReg dr v)

/-- BR's question (30_encoding.md R88): does the flag that holds have its bit among the three requested? -/
def flagRequested (n z p : Bool) (c : Cond) : Bool :=
  match c with
  | .n => n
  | .z => z
  | .p => p

end Sys2Proof.Machine
end

