-- ==== Sys2Proof/Machine/Operands.lean ====
section
/-! DEFINITION. The operand forms: the extensions of immediates and characters (spec/00_scope.md R10, 30_encoding.md R87)
and the effective addresses (42_load_store.md R137, 41_control.md R124). In each, `pc` is the incremented program counter
(10_state.md R22). -/

namespace Sys2Proof.Machine

/-- `sext_N(v)` (00_scope.md R10): bits 15 down to N are copies of bit N - 1. -/
def sext {n : Nat} (v : BitVec n) : Word :=
  v.signExtend 16

/-- `zext_16(b)` (R10). -/
def zext16 (b : Byte) : Word :=
  b.setWidth 16

/-- Bits 7:0 of a word (43_trap.md R153). -/
def lowByte (w : Word) : Byte :=
  w.extractLsb' 0 8

/-- Bits 15:8 of a word (43_trap.md R156). -/
def highByte (w : Word) : Byte :=
  w.extractLsb' 8 8

/-- PC-relative: `pc + sext_9(offset9)` (42_load_store.md R137), and the targets of BR and JSR (41_control.md R124). -/
def pcRelative {n : Nat} (offset : BitVec n) (s : State) : Word :=
  s.pc + sext offset

/-- Base + offset: `x[BaseR] + sext_6(offset6)` (R137). -/
def basePlusOffset (baseR : Reg) (offset6 : BitVec 6) (s : State) : Word :=
  s.reg baseR + sext offset6

/-- Indirect: `MemRead(pc + sext_9(offset9), 1)` (R137), the pointer read of LDI and STI with its side effect. -/
def indirect (offset9 : BitVec 9) (s : State) : Word × State :=
  memRead (pcRelative offset9 s) s

end Sys2Proof.Machine
end

