-- ==== Sys2Proof/Machine/Control.lean ====
section
/-! DEFINITION. BR, JMP, JSR, JSRR (spec/41_control.md R120 to R123), their second names NOP and RET (30_encoding.md R93),
and the two reserved opcodes (44_reserved.md R170, R171). No control transfer writes `cond` (R124). -/

namespace Sys2Proof.Machine

/-- The step does nothing beyond its fetch (00_scope.md R12, "no-op"). -/
def doNothing (s : State) : Host.Outcome State Fault Refusal :=
  .next s

/-- The branch of R120. -/
def branch (n z p : Bool) (offset9 : BitVec 9) (s : State) : State :=
  if flagRequested n z p s.cond then s.setPc (pcRelative offset9 s) else s

/-- The jump of R121: any register value is a legal target. -/
def jumpTo (baseR : Reg) (s : State) : State :=
  s.setPc (s.reg baseR)

/-- The link of JSR and JSRR: R7 gets the incremented `pc` (R122, R123). -/
def link (s : State) : State :=
  s.setReg .r7 s.pc

/-- BR (R120). -/
def execBr (n z p : Bool) (offset9 : BitVec 9) (s : State) : Host.Outcome State Fault Refusal :=
  .next (branch n z p offset9 s)

/-- NOP: BR with n = z = p = 0, never taken (R120, 30_encoding.md R93). -/
def execNop (offset9 : BitVec 9) (s : State) : Host.Outcome State Fault Refusal :=
  .next (branch false false false offset9 s)

/-- JMP (R121). -/
def execJmp (baseR : Reg) (s : State) : Host.Outcome State Fault Refusal :=
  .next (jumpTo baseR s)

/-- RET: JMP R7; it pops nothing (R121). -/
def execRet (s : State) : Host.Outcome State Fault Refusal :=
  .next (jumpTo .r7 s)

/-- JSR (R122). -/
def execJsr (offset11 : BitVec 11) (s : State) : Host.Outcome State Fault Refusal :=
  .next ((link s).setPc (pcRelative offset11 s))

/-- JSRR (R123): the base register is read after R7 is written (DEDUCED, log entry 19), so `JSRR R7` does not jump. -/
def execJsrr (baseR : Reg) (s : State) : Host.Outcome State Fault Refusal :=
  .next (jumpTo baseR (link s))

/-- The reserved opcode 1000 is a no-op, never a fault (44_reserved.md R170). -/
def execReserved8 (s : State) : Host.Outcome State Fault Refusal :=
  doNothing s

/-- The reserved opcode 1101 is a no-op, never a fault (44_reserved.md R171). -/
def execReserved13 (s : State) : Host.Outcome State Fault Refusal :=
  doNothing s

end Sys2Proof.Machine
end

