-- ==== Sys2Proof/Machine/LoadStore.lean ====
section
/-! DEFINITION. LD, LDI, LDR, LEA, ST, STI, STR (spec/42_load_store.md R130 to R136). Every read is `memRead`, with the
keyboard's side effect at its address (20_memory.md R57). -/

namespace Sys2Proof.Machine

/-- Load DR from an address and set the flags from the loaded word. -/
def loadFrom (dr : Reg) (ea : Word) (s : State) : State :=
  let r := memRead ea s
  defineReg dr r.1 r.2

/-- LD (R130). -/
def execLd (dr : Reg) (offset9 : BitVec 9) (s : State) : Host.Outcome State Fault Refusal :=
  .next (loadFrom dr (pcRelative offset9 s) s)

/-- LDI (R131): the pointer read first, then the data read, each with its side effect. -/
def execLdi (dr : Reg) (offset9 : BitVec 9) (s : State) : Host.Outcome State Fault Refusal :=
  .next (loadFrom dr (indirect offset9 s).1 (indirect offset9 s).2)

/-- LDR (R132): the base is read before DR is written. -/
def execLdr (dr baseR : Reg) (offset6 : BitVec 6) (s : State) : Host.Outcome State Fault Refusal :=
  .next (loadFrom dr (basePlusOffset baseR offset6 s) s)

/-- LEA (R133): no memory is read, and the flags are set. -/
def execLea (dr : Reg) (offset9 : BitVec 9) (s : State) : Host.Outcome State Fault Refusal :=
  .next (defineReg dr (pcRelative offset9 s) s)

/-- ST (R134). -/
def execSt (sr : Reg) (offset9 : BitVec 9) (s : State) : Host.Outcome State Fault Refusal :=
  .next (memWrite (pcRelative offset9 s) (s.reg sr) s)

/-- STI (R135): the pointer read, then the store. -/
def execSti (sr : Reg) (offset9 : BitVec 9) (s : State) : Host.Outcome State Fault Refusal :=
  let r := indirect offset9 s
  .next (memWrite r.1 (r.2.reg sr) r.2)

/-- STR (R136). -/
def execStr (sr baseR : Reg) (offset6 : BitVec 6) (s : State) : Host.Outcome State Fault Refusal :=
  .next (memWrite (basePlusOffset baseR offset6 s) (s.reg sr) s)

end Sys2Proof.Machine
end

