-- ==== Sys2Proof/Machine/Operate.lean ====
section
/-! DEFINITION. ADD, AND, NOT (spec/40_operate.md R110 to R114). The state an instruction starts from has `pc` already
incremented (10_state.md R30). All sums are modulo 65536 and nothing records a carry or an overflow (R115). -/

namespace Sys2Proof.Machine

/-- ADD, register mode (R110). -/
def execAddReg (dr sr1 sr2 : Reg) (s : State) : Host.Outcome State Fault Refusal :=
  .next (defineReg dr (s.reg sr1 + s.reg sr2) s)

/-- ADD, immediate mode (R111). -/
def execAddImm (dr sr1 : Reg) (imm5 : BitVec 5) (s : State) : Host.Outcome State Fault Refusal :=
  .next (defineReg dr (s.reg sr1 + sext imm5) s)

/-- AND, register mode (R112). -/
def execAndReg (dr sr1 sr2 : Reg) (s : State) : Host.Outcome State Fault Refusal :=
  .next (defineReg dr (s.reg sr1 &&& s.reg sr2) s)

/-- AND, immediate mode (R113): the immediate is sign-extended as for ADD. -/
def execAndImm (dr sr1 : Reg) (imm5 : BitVec 5) (s : State) : Host.Outcome State Fault Refusal :=
  .next (defineReg dr (s.reg sr1 &&& sext imm5) s)

/-- NOT (R114). -/
def execNot (dr sr : Reg) (s : State) : Host.Outcome State Fault Refusal :=
  .next (defineReg dr (~~~(s.reg sr)) s)

end Sys2Proof.Machine
end

