-- ==== Sys2Proof/Machine/Trap.lean ====
section
/-! DEFINITION. TRAP and the six routines (spec/43_trap.md R150 to R158). A routine is performed by the hardware inside the
step of its TRAP: nothing is saved, nothing is jumped to, `cond` is not written (R151). A routine that cannot come to its
end yet leaves itself in `busy` and goes on in the next step of the model (log entries 11 and 13). -/

namespace Sys2Proof.Machine

/-- The routine has ended, or what of it goes on in the next step. -/
def State.setBusy (s : State) (r : Option Routine) : State :=
  { s with busy := r }

/-- GETC once the host is asked for a character: take it into R0, or wait (R152; zero-extended by log entry 21). -/
def takeGetc (s : State) : State :=
  match askHost s with
  | (some c, t) => (t.setReg .r0 (zext16 c)).setBusy none
  | (none, t) => t.setBusy (some .getc)

/-- IN after its prompt: take a character, echo it, put it in R0; or wait (R155; log entry 21). -/
def takeInEcho (s : State) : State :=
  match askHost s with
  | (some c, t) => ((t.emit [c]).setReg .r0 (zext16 c)).setBusy none
  | (none, t) => t.setBusy (some .inEcho)

/-- The bytes PUTS writes for a word that is not zero (R154). -/
def putsBytes (w : Word) : List Byte :=
  [lowByte w]

/-- The bytes PUTSP writes for a word that is not zero: the low byte, then the high byte unless it is zero (R156). -/
def putspBytes (w : Word) : List Byte :=
  if highByte w = 0 then [lowByte w] else [lowByte w, highByte w]

/-- The walk of PUTS and PUTSP for at most `fuel` words (R154, R156): the pointer where it has not met a zero word yet, or
none, and the state. Each word is read by `memRead`; the pointer wraps; R0 is not changed (log entry 22). -/
def walk (bytesOf : Word → List Byte) : Nat → Word → State → Option Word × State
  | 0, a, s => (some a, s)
  | fuel + 1, a, s =>
      let r := memRead a s
      if r.1 = 0x0000 then (none, r.2)
      else walk bytesOf fuel (a + 1) (r.2.emit (bytesOf r.1))

/-- PUTS from a pointer on (R154). -/
def putsFrom (a : Word) (s : State) : State :=
  let r := walk putsBytes Config.stringLap a s
  r.2.setBusy (r.1.map Routine.puts)

/-- PUTSP from a pointer on (R156). -/
def putspFrom (a : Word) (s : State) : State :=
  let r := walk putspBytes Config.stringLap a s
  r.2.setBusy (r.1.map Routine.putsp)

/-- GETC (R152). -/
def getcRoutine (s : State) : State :=
  takeGetc s

/-- OUT (R153). -/
def outRoutine (s : State) : State :=
  s.emit [lowByte (s.reg .r0)]

/-- PUTS (R154). -/
def putsRoutine (s : State) : State :=
  putsFrom (s.reg .r0) s

/-- IN (R155): the prompt is written before the read. -/
def inEchoRoutine (s : State) : State :=
  takeInEcho (s.emit Config.inPrompt)

/-- PUTSP (R156). -/
def putspRoutine (s : State) : State :=
  putspFrom (s.reg .r0) s

/-- HALT (R157): the notice, then `running` is cleared. -/
def haltRoutine (s : State) : State :=
  { s.emit Config.haltNotice with running := false }

/-- The unfinished routine goes on (10_state.md R33 (c), 43_trap.md R159). -/
def resume (r : Routine) (s : State) : State :=
  match r with
  | .getc => takeGetc s
  | .inEcho => takeInEcho s
  | .puts a => putsFrom a s
  | .putsp a => putspFrom a s

/-- Where the host's abort can fall: between two steps, and in the blocking read of GETC or IN, but not inside the step of a
PUTS or PUTSP that has not ended (60_exceptions.md R183; log entry 14). -/
def abortCanFall : Option Routine → Bool
  | none => true
  | some .getc => true
  | some .inEcho => true
  | some (.puts _) => false
  | some (.putsp _) => false

/-- TRAP (R150): the vector selects the routine; every other vector is a no-op (R158). -/
def execTrap (trapvect8 : BitVec 8) (s : State) : Host.Outcome State Fault Refusal :=
  match trapvect8.toNat with
  | 0x20 => .next (getcRoutine s)
  | 0x21 => .next (outRoutine s)
  | 0x22 => .next (putsRoutine s)
  | 0x23 => .next (inEchoRoutine s)
  | 0x24 => .next (putspRoutine s)
  | 0x25 => .next (haltRoutine s)
  | _ => .next s

/-- GETC, TRAP x20 (R152). -/
def execGetc (s : State) : Host.Outcome State Fault Refusal :=
  .next (getcRoutine s)

/-- OUT, TRAP x21 (R153). -/
def execOut (s : State) : Host.Outcome State Fault Refusal :=
  .next (outRoutine s)

/-- PUTS, TRAP x22 (R154). -/
def execPuts (s : State) : Host.Outcome State Fault Refusal :=
  .next (putsRoutine s)

/-- IN, TRAP x23 (R155). -/
def execInEcho (s : State) : Host.Outcome State Fault Refusal :=
  .next (inEchoRoutine s)

/-- PUTSP, TRAP x24 (R156). -/
def execPutsp (s : State) : Host.Outcome State Fault Refusal :=
  .next (putspRoutine s)

/-- HALT, TRAP x25 (R157). -/
def execHalt (s : State) : Host.Outcome State Fault Refusal :=
  .next (haltRoutine s)

end Sys2Proof.Machine
end

