-- ==== Sys2Proof/Machine/Step.lean ====
section
/-! DEFINITION. One step of the model (spec/10_state.md R30 to R33, 60_exceptions.md R186, R195), and the placing of a word
where the next step fetches. -/

namespace Sys2Proof.Machine

/-- One step. A halted machine does not change any more (R32; log entry 12). A requested abort ends the run where it can fall
(R183, R186; log entry 14). A trap routine that has not ended goes on (R33 (c); log entries 11, 13). Otherwise: fetch,
increment, execute (R30). -/
def step (s : State) : Host.Outcome State Fault Refusal :=
  if s.running = false then .next s
  else if s.abortRequested = true ∧ abortCanFall s.busy = true then .fault .hostAbort
  else
    match s.busy with
    | some r => .next (resume r s)
    | none => exec (decode (fetch s).1) (fetch s).2

/-- The word whose number is `w` stored at `pc`, and what the fetch of it needs: the machine runs, no abort waits, no routine
is unfinished. The keyboard status address cannot hold an instruction across the fetch's own poll (R31), so a `pc` there is
moved to the start address (log entry 24). -/
def State.withFetchWord (s : State) (_nbits w : Nat) : State :=
  let pc := if s.pc = Config.kbsrAddr then Config.pcStart else s.pc
  { s with
    pc := pc
    running := true
    busy := none
    abortRequested := false
    mem := s.mem.write pc (BitVec.ofNat 16 w) }

end Sys2Proof.Machine
end

