-- ==== Sys2Proof/Machine/Boot.lean ====
section
/-! DEFINITION. The boot agent (spec/70_reset_and_hazards.md section 2): a function from an image's bytes to the machine
before its first step. It is outside the hardware block and defines the initial memory (90_conflicts.md C5). -/

namespace Sys2Proof.Machine

/-- The image's words (R211): each pair of bytes, the first one bits 15:8. A trailing odd byte makes no word (R213). -/
def imageWords : List Byte → List Word
  | hi :: lo :: rest => (hi ++ lo : BitVec 16) :: imageWords rest
  | _ => []

/-- The payload copied from address `a` on, stopping where the address space ends (R212): it never wraps. -/
def placeWords : Nat → List Word → Memory → Memory
  | _, [], m => m
  | a, w :: rest, m => if a < 65536 then placeWords (a + 1) rest (m.write (BitVec.ofNat 16 a) w) else m

/-- `Load` (R212): word 0 is the origin. Without one nothing is loaded (R213, log entry 26). -/
def loadImage (bytes : List Byte) : Memory :=
  match imageWords bytes with
  | [] => { cells := [] }
  | origin :: payload => placeWords origin.toNat payload { cells := [] }

/-- The machine before its first step (R214, R215): memory zeroed and loaded, everything else as at creation. `pc` is the
fixed start address whatever the origin is. -/
def State.boot (bytes : List Byte) : State :=
  { State.reset with mem := loadImage bytes }

/-- An image file that cannot be opened constructs no machine (R213, 60_exceptions.md R187; log entry 27). -/
def State.bootFile (file : Option (List Byte)) : Option State :=
  file.map State.boot

end Sys2Proof.Machine
end

