-- ==== Sys2Proof/Safety.lean ====
section
/-! DEFINITION. The terms claims are stated in: what a well-formed state is, what a safe outcome is, and what it means that a
part of the state is kept. None of them is used by the machine. -/

namespace Sys2Proof.Machine

/-! ## Safe states and outcomes -/

/-- The invariant of the model: memory is in its canonical form, and a halted machine has no unfinished routine (HALT is the
last thing that ran, spec/10_state.md R32). -/
def State.Inv (s : State) : Prop :=
  s.mem.wf = true ∧ (s.running = false → s.busy = none)

/-- A step is safe when it answers a next state, or ends the run because the host asked for it (60_exceptions.md R180, R186). -/
def SafeStep (s : State) : Prop :=
  (∃ t, step s = .next t) ∨ (s.abortRequested = true ∧ step s = .fault .hostAbort)

/-! ## What is kept -/

/-- Every register but those named keeps its word. -/
def RegsKeptBut (ds : List Reg) (s t : State) : Prop :=
  ∀ r, r ∉ ds → t.reg r = s.reg r

/-- Every word of memory but those at the addresses named reads as before. -/
def WordsKeptBut (addrs : List Word) (s t : State) : Prop :=
  ∀ a, a ∉ addrs → t.mem.read a = s.mem.read a

/-- The host's side is as before: nothing asked, nothing taken. -/
def HostKept (s t : State) : Prop :=
  t.hostScript = s.hostScript ∧ t.hostCalls = s.hostCalls ∧ t.abortRequested = s.abortRequested

/-- Lifecycle and output are as before: still running or halted as it was, no routine begun or ended, no byte written. -/
def LifeKept (s t : State) : Prop :=
  t.running = s.running ∧ t.busy = s.busy ∧ t.output = s.output

/-- The condition flag that holds says what the value is: exactly one of the three (10_state.md R24, R25). -/
def FlagSays (c : Cond) (v : Word) : Prop :=
  (c = .z ↔ v.toNat = 0) ∧ (c = .n ↔ 0x8000 ≤ v.toNat) ∧ (c = .p ↔ 1 ≤ v.toNat ∧ v.toNat ≤ 0x7FFF)

/-- The whole of a value-defining instruction's effect beside the value itself, where no memory is read: the flag follows DR,
and nothing else changes. -/
def OnlyDefines (dr : Reg) (s t : State) : Prop :=
  FlagSays t.cond (t.reg dr) ∧ RegsKeptBut [dr] s t ∧ t.pc = s.pc ∧ WordsKeptBut [] s t ∧ LifeKept s t ∧ HostKept s t

/-- The whole of a control transfer's effect beside `pc` and the registers named: nothing else changes. -/
def OnlyTransfers (ds : List Reg) (s t : State) : Prop :=
  RegsKeptBut ds s t ∧ t.cond = s.cond ∧ WordsKeptBut [] s t ∧ LifeKept s t ∧ HostKept s t

/-- The words a `MemRead` at this address may change: the two keyboard words at the status address, none elsewhere
(20_memory.md R52). -/
def touchedByRead (a : Word) : List Word :=
  if a = Config.kbsrAddr then [Config.kbsrAddr, Config.kbdrAddr] else []

/-- Everything `MemRead` keeps at every address: registers, `pc`, `cond`, lifecycle, output (20_memory.md R52). -/
def ReadKeeps (a : Word) (s t : State) : Prop :=
  RegsKeptBut [] s t ∧ t.pc = s.pc ∧ t.cond = s.cond ∧ LifeKept s t ∧ t.abortRequested = s.abortRequested ∧
    WordsKeptBut (touchedByRead a) s t

/-- A base address plus a signed offset, modulo 65536 (00_scope.md R9). -/
def addSigned (base : Word) (offset : Int) : Word :=
  BitVec.ofInt 16 (base.toNat + offset)

/-! ## Strings -/

/-- The words at `a`, `a + 1`, … are these, none of them zero, and the word after them is zero (43_trap.md R154). -/
def StringAt (m : Memory) : Word → List Word → Prop
  | a, [] => m.read a = 0x0000
  | a, w :: ws => m.read a = w ∧ w ≠ 0x0000 ∧ StringAt m (a + 1) ws

/-- The byte PUTS writes for a word: its low byte (43_trap.md R154). -/
def putsText (w : Word) : List Byte :=
  [BitVec.ofNat 8 (w.toNat % 256)]

/-- The bytes PUTSP writes for a word: its low byte, then its high byte unless that is zero (43_trap.md R156). -/
def putspText (w : Word) : List Byte :=
  if w.toNat < 256 then [BitVec.ofNat 8 (w.toNat % 256)]
  else [BitVec.ofNat 8 (w.toNat % 256), BitVec.ofNat 8 (w.toNat / 256)]

/-- The words at `a`, `a + 1`, … are these and none of them is zero; nothing is said of the word after them. -/
def WordsAt (m : Memory) : Word → List Word → Prop
  | _, [] => True
  | a, w :: ws => m.read a = w ∧ w ≠ 0x0000 ∧ WordsAt m (a + 1) ws

/-- Memory after a poll of the keyboard that found the character `c` (20_memory.md R52, R58; log entry 8): the top bit of the
status word is set, and the data word is the character zero-extended. -/
def memAfterKey (m : Memory) (c : Byte) : Memory :=
  (m.write Config.kbsrAddr (m.read Config.kbsrAddr ||| 0x8000)).write Config.kbdrAddr (c.setWidth 16)

/-- The addresses `a`, `a + 1`, … of `n` words, modulo 65536. -/
def addressesFrom : Word → Nat → List Word
  | _, 0 => []
  | a, n + 1 => a :: addressesFrom (a + 1) n

/-! ## Who writes what -/

/-- The registers an instruction may write: the column of 10_state.md R21. -/
def writesOf : Instr → List Reg
  | .addReg dr _ _ => [dr]
  | .addImm dr _ _ => [dr]
  | .andReg dr _ _ => [dr]
  | .andImm dr _ _ => [dr]
  | .not dr _ => [dr]
  | .br _ _ _ _ => []
  | .jmp _ => []
  | .jsr _ => [.r7]
  | .jsrr _ => [.r7]
  | .ld dr _ => [dr]
  | .ldi dr _ => [dr]
  | .ldr dr _ _ => [dr]
  | .lea dr _ => [dr]
  | .st _ _ => []
  | .sti _ _ => []
  | .str _ _ _ => []
  | .trap v => if v = 0x20 ∨ v = 0x23 then [.r0] else []
  | .reserved8 => []
  | .reserved13 => []
  | .getc => [.r0]
  | .out => []
  | .puts => []
  | .inEcho => [.r0]
  | .putsp => []
  | .halt => []
  | .ret => []
  | .nop _ => []

/-- The destination register of a value-defining instruction, and none for every other (00_scope.md R12, 10_state.md R26). -/
def definesOf : Instr → Option Reg
  | .addReg dr _ _ => some dr
  | .addImm dr _ _ => some dr
  | .andReg dr _ _ => some dr
  | .andImm dr _ _ => some dr
  | .not dr _ => some dr
  | .ld dr _ => some dr
  | .ldi dr _ => some dr
  | .ldr dr _ _ => some dr
  | .lea dr _ => some dr
  | .br _ _ _ _ => none
  | .jmp _ => none
  | .jsr _ => none
  | .jsrr _ => none
  | .st _ _ => none
  | .sti _ _ => none
  | .str _ _ _ => none
  | .trap _ => none
  | .reserved8 => none
  | .reserved13 => none
  | .getc => none
  | .out => none
  | .puts => none
  | .inEcho => none
  | .putsp => none
  | .halt => none
  | .ret => none
  | .nop _ => none

/-- TRAP under any of its names: the instructions that may produce output (20_memory.md R55, 10_state.md R36). -/
def isTrap : Instr → Bool
  | .trap _ | .getc | .out | .puts | .inEcho | .putsp | .halt => true
  | .addReg _ _ _ | .addImm _ _ _ | .andReg _ _ _ | .andImm _ _ _ | .not _ _ => false
  | .br _ _ _ _ | .jmp _ | .jsr _ | .jsrr _ | .ret | .nop _ => false
  | .ld _ _ | .ldi _ _ | .ldr _ _ _ | .lea _ _ | .st _ _ | .sti _ _ | .str _ _ _ => false
  | .reserved8 | .reserved13 => false

/-- BR, the one reader of `cond` (10_state.md R26). -/
def isBr : Instr → Bool
  | .br _ _ _ _ => true
  | .addReg _ _ _ | .addImm _ _ _ | .andReg _ _ _ | .andImm _ _ _ | .not _ _ => false
  | .jmp _ | .jsr _ | .jsrr _ | .ret | .nop _ => false
  | .ld _ _ | .ldi _ _ | .ldr _ _ _ | .lea _ _ | .st _ _ | .sti _ _ | .str _ _ _ => false
  | .trap _ | .getc | .out | .puts | .inEcho | .putsp | .halt => false
  | .reserved8 | .reserved13 => false

/-- The address an instruction stores to, in the state it starts from: the same expressions the meanings use (42_load_store.md
R134 to R136). For STI it is the pointer that its pointer read returns. None for a form that stores nothing. -/
def storesTo (i : Instr) (s : State) : Option Word :=
  match i with
  | .st _ offset9 => some (pcRelative offset9 s)
  | .sti _ offset9 => some (indirect offset9 s).1
  | .str _ baseR offset6 => some (basePlusOffset baseR offset6 s)
  | .addReg _ _ _ | .addImm _ _ _ | .andReg _ _ _ | .andImm _ _ _ | .not _ _ => none
  | .br _ _ _ _ | .jmp _ | .jsr _ | .jsrr _ | .ret | .nop _ => none
  | .ld _ _ | .ldi _ _ | .ldr _ _ _ | .lea _ _ => none
  | .trap _ | .getc | .out | .puts | .inEcho | .putsp | .halt => none
  | .reserved8 | .reserved13 => none

/-- The register whose word a storing instruction stores (42_load_store.md R134 to R136). -/
def storedRegister : Instr → Option Reg
  | .st sr _ | .sti sr _ | .str sr _ _ => some sr
  | .addReg _ _ _ | .addImm _ _ _ | .andReg _ _ _ | .andImm _ _ _ | .not _ _ => none
  | .br _ _ _ _ | .jmp _ | .jsr _ | .jsrr _ | .ret | .nop _ => none
  | .ld _ _ | .ldi _ _ | .ldr _ _ _ | .lea _ _ => none
  | .trap _ | .getc | .out | .puts | .inEcho | .putsp | .halt => none
  | .reserved8 | .reserved13 => none

/-- `pc` after an instruction, in terms of the state it starts from, whose `pc` is the incremented one: the table of
10_state.md R23. -/
def pcAfter (i : Instr) (s : State) : Word :=
  match i with
  | .br n z p offset9 =>
      if (n = true ∧ s.cond = .n) ∨ (z = true ∧ s.cond = .z) ∨ (p = true ∧ s.cond = .p) then addSigned s.pc offset9.toInt
      else s.pc
  | .jmp baseR => s.reg baseR
  | .ret => s.reg .r7
  | .jsr offset11 => addSigned s.pc offset11.toInt
  | .jsrr baseR => if baseR = .r7 then s.pc else s.reg baseR
  | .addReg _ _ _ | .addImm _ _ _ | .andReg _ _ _ | .andImm _ _ _ | .not _ _ => s.pc
  | .ld _ _ | .ldi _ _ | .ldr _ _ _ | .lea _ _ | .st _ _ | .sti _ _ | .str _ _ _ => s.pc
  | .trap _ | .getc | .out | .puts | .inEcho | .putsp | .halt => s.pc
  | .reserved8 | .reserved13 | .nop _ => s.pc

end Sys2Proof.Machine
end

