-- ==== Sys2Proof/Certificates/Slice0/Obligations.lean ====
section
/-! DEFINITION. The statements for the provers. Each docstring names the rule of spec/ it formalises, and the log entry a clause
rests on where the spec marks it as its own decision, as general knowledge or as an inference. In every statement about
`exec`, `pc` is the incremented program counter (spec/10_state.md R22). -/

open Sys2Proof Sys2Proof.Machine

/-! ## Encoding -/

/-- For every instruction named as the decoder names it, with every operand at every value, decoding its encoding gives it
back (30_encoding.md sections 1 to 4; opcode numbers by log entries 1 and 2). -/
def Obligations.DecodeOfEncodeIsIdentity : Prop :=
  ∀ i : Instr, i.wellFormed = true → decode (encode i) = i

/-- Every one of the 65536 words decodes to an instruction whose own row of the opcode table the word meets, under that
instruction's one name (30_encoding.md R83, R85, R90; numbers by log entries 1 and 2, names by 25). -/
def Obligations.EveryWordMeetsItsTableRow : Prop :=
  ∀ w : Word, w &&& (decode w).tableRow.1 = (decode w).tableRow.2 ∧ (decode w).wellFormed = true

/-- Encoding what a word decodes to gives the word back in every bit the hardware examines (30_encoding.md R86; log entry 16). -/
def Obligations.EncodeOfDecodeKeepsExaminedBits : Prop :=
  ∀ w : Word, (encode (decode w) ^^^ w) &&& ~~~((decode w).ignoredBits) = 0

/-- Two words that differ in ignored bits alone decode to the same instruction (30_encoding.md R86; log entry 16). -/
def Obligations.IgnoredBitsDoNotMatter : Prop :=
  ∀ w v : Word, (w ^^^ v) &&& ~~~((decode w).ignoredBits) = 0 → decode v = decode w

/-- Words written out from the formats of 30_encoding.md R81: of ADD, AND, NOT, BR, RET, JSR, LDR, STI, HALT and a reserved
opcode, R86's own three pairs among them. Opcode numbers by log entry 1; that a pair which differs in ignored bits, and the
reserved word's low bits, make no difference by log entry 16 (D10); that 1101 is a reserved value by log entry 2 (R84, D3); BR's
bit order by log entry 18; the names RET and HALT by log entry 25. -/
def Obligations.WordsDecodeAsTheFormatsDraw : Prop :=
  decode 0b0001010000000001#16 = .addReg .r2 .r0 .r1 ∧
  decode 0b0101101110111111#16 = .andImm .r5 .r6 0b11111#5 ∧
  decode 0b1001000000111111#16 = .not .r0 .r0 ∧ decode 0b1001000000000000#16 = .not .r0 .r0 ∧
  decode 0b0000010000000011#16 = .br false true false 3#9 ∧
  decode 0b1100111111111111#16 = .ret ∧ decode 0b1100000111000000#16 = .ret ∧
  decode 0b0100100000000100#16 = .jsr 4#11 ∧
  decode 0b0110100101111111#16 = .ldr .r4 .r5 0b111111#6 ∧
  decode 0b1011001000000000#16 = .sti .r1 0#9 ∧
  decode 0b1111000000100101#16 = .halt ∧ decode 0b1111111100100101#16 = .halt ∧
  decode 0b1101111010101101#16 = .reserved13

/-! ## The step -/

/-- A step of a running machine, away from the keyboard status address, executes the instruction the word at `pc` decodes to,
in the state with `pc` incremented and nothing else changed (10_state.md R22, R30). -/
def Obligations.StepRunsTheDecodedInstruction : Prop :=
  ∀ s : State, s.running = true → s.abortRequested = false → s.busy = none → s.pc ≠ Config.kbsrAddr →
    step s = exec (decode (s.mem.read s.pc)) { s with pc := s.pc + 1 }

/-- A fetch from the keyboard status address polls the host, and the word executed is the updated status word, whether the
host's answer is known or free (10_state.md R31; that the fetch has the side effect by log entry 15, how the top bit is set by
log entry 8, the form of the host's answers by 10). -/
def Obligations.FetchAtStatusAddressRunsTheUpdatedWord : Prop :=
  ∀ s : State, s.running = true → s.abortRequested = false → s.busy = none → s.pc = Config.kbsrAddr →
    ((askHost s).1 = none →
      step s = exec (decode 0x0000)
        { (askHost s).2 with pc := s.pc + 1, mem := s.mem.write Config.kbsrAddr 0x0000 }) ∧
    (∀ c : Byte, (askHost s).1 = some c →
      step s = exec (decode (s.mem.read Config.kbsrAddr ||| 0x8000))
        { (askHost s).2 with pc := s.pc + 1, mem := memAfterKey s.mem c })

/-- A halted machine never changes again (10_state.md R32). That the model's step answers the same state, where the spec takes
no step, is the model's choice (log entry 12). -/
def Obligations.HaltedMachineNeverChanges : Prop :=
  ∀ s : State, s.running = false → step s = .next s

/-- A running machine's run ends when the host has raised its abort, whatever it would have run, between two steps and in the
blocking read of GETC or IN; inside the step of a PUTS or PUTSP that has not ended it does not, and the routine goes on as
without it (60_exceptions.md R183, R186; the places are the spec's decision D18; that the abort is a flag and a fault, and that
a string's step spans steps of the model, are the model's choices, log entries 13 and 14). -/
def Obligations.AbortEndsTheRun : Prop :=
  ∀ s : State, s.running = true →
    (s.abortRequested = true → s.busy = none ∨ s.busy = some .getc ∨ s.busy = some .inEcho → step s = .fault .hostAbort) ∧
    (∀ a : Word, s.busy = some (.puts a) ∨ s.busy = some (.putsp a) →
      ∃ t, step s = .next t ∧ step { s with abortRequested := !s.abortRequested } =
        .next { t with abortRequested := !s.abortRequested })

/-- While GETC or IN waits, a step in which no character arrives changes nothing but the host's own side, and a step in which
one arrives ends the routine with it: R0 gets it zero-extended, IN echoes it, and no flag is set (10_state.md R35,
60_exceptions.md R195, 43_trap.md R152, R155; that the wait spans steps of the model by log entry 11, the form of the host's
answers by 10, zero-extension by 21; that no flag is set is the spec's reading C3, log entry 20). -/
def Obligations.WaitEndsWithTheHostsCharacter : Prop :=
  ∀ s : State, s.running = true → s.abortRequested = false → (s.busy = some .getc ∨ s.busy = some .inEcho) →
    ((askHost s).1 = none → step s = .next (askHost s).2) ∧
    (∀ c : Byte, (askHost s).1 = some c →
      ∃ t, step s = .next t ∧ t.busy = none ∧ HostKept (askHost s).2 t ∧
        t.output = (if s.busy = some .inEcho then s.output ++ [c] else s.output) ∧
        (t.reg .r0).toNat = c.toNat ∧ RegsKeptBut [.r0] s t ∧ WordsKeptBut [] s t ∧
        t.pc = s.pc ∧ t.cond = s.cond ∧ t.running = true)

/-- The core raises no exception: every instruction answers a next state in every state, a step is never refused, and it ends a
run without a next state only when the host asked for the abort; a load failure constructs no machine (60_exceptions.md R180).
HALT ends a run by a next state that is not running (R33 (a)). Model's choices: a halted machine's step answers the same state
(log entry 12); a GETC or IN whose character has not come and a PUTS or PUTSP that has not ended, which by R184 and R217 may
never complete, answer a next state in which they wait or pause (log entries 11 and 13); the abort is a fault (14); no machine
is `none` (27). -/
def Obligations.NoSynchronousException : Prop :=
  (∀ (i : Instr) (s : State), ∃ t, exec i s = .next t) ∧
  (∀ s : State, SafeStep s) ∧
  State.bootFile none = none

/-! ## Arithmetic, registers, flags -/

/-- The extensions of 00_scope.md R10: `sext_N(v)` is `v` or-ed with the bits from N up when bit N - 1 is set, and `v`
otherwise, for N in 5, 6, 9, 11; equivalently its two's-complement value modulo 65536; `zext_16(b)` has `b` in its low byte
and zero above. -/
def Obligations.SignAndZeroExtension : Prop :=
  (∀ v : BitVec 5, sext v = if v.getLsbD 4 then v.setWidth 16 ||| (0xFFFF#16 <<< 5) else v.setWidth 16) ∧
  (∀ v : BitVec 6, sext v = if v.getLsbD 5 then v.setWidth 16 ||| (0xFFFF#16 <<< 6) else v.setWidth 16) ∧
  (∀ v : BitVec 9, sext v = if v.getLsbD 8 then v.setWidth 16 ||| (0xFFFF#16 <<< 9) else v.setWidth 16) ∧
  (∀ v : BitVec 11, sext v = if v.getLsbD 10 then v.setWidth 16 ||| (0xFFFF#16 <<< 11) else v.setWidth 16) ∧
  (∀ (n : Nat) (v : BitVec n), n = 5 ∨ n = 6 ∨ n = 9 ∨ n = 11 →
    ((sext v).toNat : Int) = (if 2 ^ (n - 1) ≤ v.toNat then ((v.toNat : Int) - 2 ^ n) % 65536 else v.toNat)) ∧
  (∀ b : Byte, lowByte (zext16 b) = b ∧ highByte (zext16 b) = 0)

/-- The address forms: PC-relative with a 9-bit or an 11-bit offset, and base plus a 6-bit offset, each a signed sum modulo
65536 with the incremented `pc` or the base register; the indirect form reads its pointer at the PC-relative address
(42_load_store.md R137, 41_control.md R124). -/
def Obligations.AddressFormsAreSignedSums : Prop :=
  ∀ s : State,
    (∀ o : BitVec 9, ((pcRelative o s).toNat : Int) = (s.pc.toNat + o.toInt) % 65536) ∧
    (∀ o : BitVec 11, ((pcRelative o s).toNat : Int) = (s.pc.toNat + o.toInt) % 65536) ∧
    (∀ (b : Reg) (o : BitVec 6), ((basePlusOffset b o s).toNat : Int) = ((s.reg b).toNat + o.toInt) % 65536) ∧
    (∀ o : BitVec 9, indirect o s = memRead (pcRelative o s) s)

/-- Eight registers of 16 bits, each one ordinary: a write replaces that register's word and changes nothing else, and a 3-bit
field selects any of the eight uniformly (10_state.md R20). -/
def Obligations.RegistersAreEightOrdinaryWords : Prop :=
  (∀ (s : State) (r : Reg) (v : Word),
    (s.setReg r v).reg r = v ∧ RegsKeptBut [r] s (s.setReg r v) ∧ (s.setReg r v).pc = s.pc ∧
    (s.setReg r v).cond = s.cond ∧ (s.setReg r v).mem = s.mem ∧ LifeKept s (s.setReg r v) ∧ HostKept s (s.setReg r v)) ∧
  (∀ r : Reg, Reg.ofBits r.toBits = r) ∧ (∀ b : BitVec 3, (Reg.ofBits b).toBits = b)

/-- `setcc` sets the flag to what the register's current value says and changes nothing else, and every value-defining
instruction ends with it: after the instruction the flag says what the just-written DR holds (10_state.md R25). -/
def Obligations.SetccReflectsTheWrittenRegister : Prop :=
  (∀ (r : Reg) (s : State), FlagSays (setcc r s).cond (s.reg r) ∧ setcc r s = { s with cond := (setcc r s).cond }) ∧
  (∀ (i : Instr) (dr : Reg) (s : State), definesOf i = some dr →
    ∃ t, exec i s = .next t ∧ FlagSays t.cond (t.reg dr))

/-- ADD, AND and NOT, in every form: DR gets the sum modulo 65536, the bitwise and, or the complement; the flag follows DR;
nothing else changes (40_operate.md R110 to R114, semantics). -/
def Obligations.OperateResultsAndFrame : Prop :=
  ∀ (dr sr1 : Reg) (s : State),
    (∀ sr2 : Reg, ∃ t, exec (.addReg dr sr1 sr2) s = .next t ∧
      (t.reg dr).toNat = ((s.reg sr1).toNat + (s.reg sr2).toNat) % 65536 ∧ OnlyDefines dr s t) ∧
    (∀ imm5 : BitVec 5, ∃ t, exec (.addImm dr sr1 imm5) s = .next t ∧
      ((t.reg dr).toNat : Int) = ((s.reg sr1).toNat + imm5.toInt) % 65536 ∧ OnlyDefines dr s t) ∧
    (∀ sr2 : Reg, ∃ t, exec (.andReg dr sr1 sr2) s = .next t ∧
      (∀ k, (t.reg dr).getLsbD k = ((s.reg sr1).getLsbD k && (s.reg sr2).getLsbD k)) ∧ OnlyDefines dr s t) ∧
    (∀ imm5 : BitVec 5, ∃ t, exec (.andImm dr sr1 imm5) s = .next t ∧
      (∀ k, (t.reg dr).getLsbD k = ((s.reg sr1).getLsbD k && imm5.getLsbD (min k 4))) ∧ OnlyDefines dr s t) ∧
    (∃ t, exec (.not dr sr1) s = .next t ∧ (t.reg dr).toNat = 65535 - (s.reg sr1).toNat ∧ OnlyDefines dr s t)

/-- If the second register holds the immediate's sign-extended value, the two modes of ADD leave the same state, and the two
modes of AND likewise (40_operate.md R116). -/
def Obligations.RegisterAndImmediateModesAgree : Prop :=
  ∀ (dr sr1 sr2 : Reg) (imm5 : BitVec 5) (s : State), s.reg sr2 = sext imm5 →
    exec (.addReg dr sr1 sr2) s = exec (.addImm dr sr1 imm5) s ∧
    exec (.andReg dr sr1 sr2) s = exec (.andImm dr sr1 imm5) s

/-- The writers of `cond` are exactly the value-defining instructions, each from its DR; no other instruction changes it; and
no instruction but BR depends on it: from two states that differ in `cond` alone, every other instruction leaves states that
differ in `cond` at most (10_state.md R26; that GETC, IN, JSR and JSRR leave it is the spec's reading of its source,
90_conflicts.md C3, log entry 20). -/
def Obligations.CondWritersAndReaders : Prop :=
  (∀ (i : Instr) (dr : Reg) (s : State), definesOf i = some dr →
    ∃ t, exec i s = .next t ∧ FlagSays t.cond (t.reg dr)) ∧
  (∀ (i : Instr) (s : State), definesOf i = none → ∃ t, exec i s = .next t ∧ t.cond = s.cond) ∧
  (∀ (i : Instr) (s : State) (c : Cond), isBr i = false →
    ∃ t u, exec i s = .next t ∧ exec i { s with cond := c } = .next u ∧ { u with cond := t.cond } = t ∧
      (definesOf i ≠ none → u = t))

/-! ## Control transfer -/

/-- BR: it goes to `pc` plus the signed offset exactly when a requested flag holds, and to the next instruction otherwise;
nothing else changes (41_control.md R120; bit order by log entry 18). -/
def Obligations.BranchIsTakenWhenARequestedFlagHolds : Prop :=
  ∀ (n z p : Bool) (o : BitVec 9) (s : State),
    ∃ t, exec (.br n z p o) s = .next t ∧ OnlyTransfers [] s t ∧
      (((n = true ∧ s.cond = .n) ∨ (z = true ∧ s.cond = .z) ∨ (p = true ∧ s.cond = .p)) →
        (t.pc.toNat : Int) = (s.pc.toNat + o.toInt) % 65536) ∧
      (¬((n = true ∧ s.cond = .n) ∨ (z = true ∧ s.cond = .z) ∨ (p = true ∧ s.cond = .p)) → t.pc = s.pc)

/-- JMP goes to the base register's word, RET to R7's, and neither changes anything else; RET is JMP R7 (41_control.md R121). -/
def Obligations.JumpGoesToTheRegister : Prop :=
  ∀ (b : Reg) (s : State),
    (∃ t, exec (.jmp b) s = .next t ∧ t.pc = s.reg b ∧ OnlyTransfers [] s t) ∧
    (∃ t, exec .ret s = .next t ∧ t.pc = s.reg .r7 ∧ OnlyTransfers [] s t) ∧
    exec .ret s = exec (.jmp .r7) s

/-- JSR puts the incremented `pc` in R7 and goes to it plus the signed offset; no flag and nothing else changes
(41_control.md R122). -/
def Obligations.CallLinksAndGoesPcRelative : Prop :=
  ∀ (o : BitVec 11) (s : State),
    ∃ t, exec (.jsr o) s = .next t ∧ t.reg .r7 = s.pc ∧ (t.pc.toNat : Int) = (s.pc.toNat + o.toInt) % 65536 ∧
      OnlyTransfers [.r7] s t

/-- JSRR puts the incremented `pc` in R7 and goes to the base register's word; with R7 itself as the base it does not jump,
R7 being written before it is read (41_control.md R123; that order is the spec's decision D11, log entry 19). -/
def Obligations.CallThroughRegisterLinksFirst : Prop :=
  ∀ (b : Reg) (s : State),
    ∃ t, exec (.jsrr b) s = .next t ∧ t.reg .r7 = s.pc ∧ OnlyTransfers [.r7] s t ∧
      (b ≠ .r7 → t.pc = s.reg b) ∧ (b = .r7 → t.pc = s.pc)

/-- The two reserved opcodes, NOP with every offset, and TRAP with every vector outside x20 to x25 change nothing: the state
after is the state the fetch left (44_reserved.md R170, R171; 43_trap.md R158; which opcode values are reserved by log entry 2). -/
def Obligations.NoOpsChangeNothing : Prop :=
  ∀ s : State,
    exec .reserved8 s = .next s ∧ exec .reserved13 s = .next s ∧
    (∀ o : BitVec 9, exec (.nop o) s = .next s ∧ exec (.nop o) s = exec (.br false false false o) s) ∧
    (∀ v : BitVec 8, (v.toNat < 0x20 ∨ 0x25 < v.toNat) → exec (.trap v) s = .next s)

/-- A step that fetches a reserved opcode or an unknown trap vector advances `pc` by one and leaves registers, flag, lifecycle
and output unchanged, and memory too unless it was fetched from the keyboard status address (30_encoding.md R91). -/
def Obligations.UnknownEncodingsOnlyAdvancePc : Prop :=
  ∀ s : State, s.running = true → s.abortRequested = false → s.busy = none →
    (decode (fetch s).1 = .reserved8 ∨ decode (fetch s).1 = .reserved13 ∨
      ∃ v : BitVec 8, decode (fetch s).1 = .trap v) →
    ∃ t, step s = .next t ∧ t.pc = s.pc + 1 ∧ RegsKeptBut [] s t ∧ t.cond = s.cond ∧ LifeKept s t ∧
      WordsKeptBut (touchedByRead s.pc) s t

/-- `pc` after every instruction is what the table of 10_state.md R23 says, in terms of the incremented `pc` (derived by the
spec, D29; JSRR with R7 by log entry 19). -/
def Obligations.PcAfterEveryInstruction : Prop :=
  ∀ (i : Instr) (s : State), ∃ t, exec i s = .next t ∧ t.pc = pcAfter i s

/-! ## Memory and the keyboard -/

/-- A read at any address but the keyboard status address is a plain lookup that changes nothing at all, the keyboard data
word's included (20_memory.md R52, R54). -/
def Obligations.ReadsElsewhereArePlain : Prop :=
  (∀ (a : Word) (s : State), a ≠ Config.kbsrAddr → memRead a s = (s.mem.read a, s)) ∧
  (∀ s : State, memRead Config.kbdrAddr s = (s.mem.read Config.kbdrAddr, s))

/-- A read of the keyboard status address consumes one answer of the host, the script's next one or a free one beyond it: with
no key it clears the status word; with a key it sets the top bit, takes the character into the data word zero-extended, and
the value read is the updated status word; nothing else changes (20_memory.md R52, R53, R56; how the top bit is set by log
entry 8, the form of the host's answers by 10). -/
def Obligations.StatusReadPollsTheHost : Prop :=
  ∀ s : State,
    (∀ rest : List HostAnswer, s.hostScript = none :: rest →
      (memRead Config.kbsrAddr s).1 = 0x0000 ∧ (memRead Config.kbsrAddr s).2.mem.read Config.kbsrAddr = 0x0000 ∧
      (memRead Config.kbsrAddr s).2.mem.read Config.kbdrAddr = s.mem.read Config.kbdrAddr ∧
      (memRead Config.kbsrAddr s).2.hostScript = rest ∧ (memRead Config.kbsrAddr s).2.hostCalls = s.hostCalls) ∧
    (∀ (c : Byte) (rest : List HostAnswer), s.hostScript = some c :: rest →
      (memRead Config.kbsrAddr s).1 = s.mem.read Config.kbsrAddr ||| 0x8000 ∧
      (memRead Config.kbsrAddr s).2.mem.read Config.kbsrAddr = s.mem.read Config.kbsrAddr ||| 0x8000 ∧
      ((memRead Config.kbsrAddr s).2.mem.read Config.kbdrAddr).toNat = c.toNat ∧
      (memRead Config.kbsrAddr s).2.hostScript = rest ∧ (memRead Config.kbsrAddr s).2.hostCalls = s.hostCalls) ∧
    (s.hostScript = [] →
      (Config.freeAnswer s.hostCalls = none → (memRead Config.kbsrAddr s).1 = 0x0000) ∧
      (∀ c : Byte, Config.freeAnswer s.hostCalls = some c →
        (memRead Config.kbsrAddr s).1 = s.mem.read Config.kbsrAddr ||| 0x8000 ∧
        ((memRead Config.kbsrAddr s).2.mem.read Config.kbdrAddr).toNat = c.toNat) ∧
      (memRead Config.kbsrAddr s).2.hostScript = [] ∧ (memRead Config.kbsrAddr s).2.hostCalls = s.hostCalls + 1) ∧
    ReadKeeps Config.kbsrAddr s (memRead Config.kbsrAddr s).2

/-- Whatever the host answers, also beyond every script, a read of the status address completes: with no key it returns the
cleared word and the data word stays; with a key it returns the old status word with bit 15 set, and the data word is the
character zero-extended; so bit 15 of the word read says whether a key was found (20_memory.md R53, R56; that bits 14 to 0
stay is the spec's decision D15, log entry 8; the form of the host's answers by 10). -/
def Obligations.StatusReadIsReadyOrClear : Prop :=
  ∀ s : State,
    ((askHost s).1 = none →
      (memRead Config.kbsrAddr s).1 = 0x0000 ∧
      (memRead Config.kbsrAddr s).2.mem.read Config.kbdrAddr = s.mem.read Config.kbdrAddr) ∧
    (∀ c : Byte, (askHost s).1 = some c →
      (memRead Config.kbsrAddr s).1 = s.mem.read Config.kbsrAddr ||| 0x8000 ∧
      ((memRead Config.kbsrAddr s).2.mem.read Config.kbdrAddr).toNat = c.toNat) ∧
    ((memRead Config.kbsrAddr s).1.msb = true ↔ (askHost s).1 ≠ none) ∧
    (memRead Config.kbsrAddr s).1 = (memRead Config.kbsrAddr s).2.mem.read Config.kbsrAddr ∧
    ReadKeeps Config.kbsrAddr s (memRead Config.kbsrAddr s).2 ∧
    HostKept (askHost s).2 (memRead Config.kbsrAddr s).2

/-- `MemWrite` is an unconditional store of one word at every address, the keyboard words included, without any side effect;
only reads of the status address have one; and only TRAP can produce output (20_memory.md R55). -/
def Obligations.StoresArePlainAndSilent : Prop :=
  (∀ (a v : Word) (s : State),
    (memWrite a v s).mem.read a = v ∧ WordsKeptBut [a] s (memWrite a v s) ∧ RegsKeptBut [] s (memWrite a v s) ∧
    (memWrite a v s).pc = s.pc ∧ (memWrite a v s).cond = s.cond ∧ LifeKept s (memWrite a v s) ∧
    HostKept s (memWrite a v s)) ∧
  (∀ (a : Word) (s : State), a ≠ Config.kbsrAddr → (memRead a s).2 = s) ∧
  (∀ (i : Instr) (s : State), isTrap i = false → ∃ t, exec i s = .next t ∧ t.output = s.output)

/-- LD and LDR: DR gets the word a `MemRead` of the PC-relative or base address returns, the flag follows it, the state is the
one that read left, and nothing else changes; LDI the same with its address from the pointer read, made first (42_load_store.md
R130 to R132). -/
def Obligations.LoadsDefineFromTheWordRead : Prop :=
  ∀ (dr : Reg) (s : State),
    (∀ o : BitVec 9, ∃ t, exec (.ld dr o) s = .next t ∧ t.reg dr = (memRead (pcRelative o s) s).1 ∧
      FlagSays t.cond (t.reg dr) ∧ RegsKeptBut [dr] s t ∧ t.pc = s.pc ∧ LifeKept s t ∧
      HostKept (memRead (pcRelative o s) s).2 t ∧ WordsKeptBut [] (memRead (pcRelative o s) s).2 t ∧
      WordsKeptBut (touchedByRead (pcRelative o s)) s t) ∧
    (∀ (b : Reg) (o : BitVec 6), ∃ t, exec (.ldr dr b o) s = .next t ∧ t.reg dr = (memRead (basePlusOffset b o s) s).1 ∧
      FlagSays t.cond (t.reg dr) ∧ RegsKeptBut [dr] s t ∧ t.pc = s.pc ∧ LifeKept s t ∧
      HostKept (memRead (basePlusOffset b o s) s).2 t ∧ WordsKeptBut [] (memRead (basePlusOffset b o s) s).2 t ∧
      WordsKeptBut (touchedByRead (basePlusOffset b o s)) s t) ∧
    (∀ o : BitVec 9, ∃ t, exec (.ldi dr o) s = .next t ∧ t.reg dr = (memRead (indirect o s).1 (indirect o s).2).1 ∧
      FlagSays t.cond (t.reg dr) ∧ RegsKeptBut [dr] s t ∧ t.pc = s.pc ∧ LifeKept s t ∧
      HostKept (memRead (indirect o s).1 (indirect o s).2).2 t ∧
      WordsKeptBut [] (memRead (indirect o s).1 (indirect o s).2).2 t ∧
      WordsKeptBut (touchedByRead (pcRelative o s) ++ touchedByRead (indirect o s).1) s t)

/-- Away from the keyboard status address the loads read the stored words themselves: LD and LDR one word, LDI the word its
pointer points to; no word of memory changes and the host is not asked (42_load_store.md R130 to R132, 20_memory.md R52). -/
def Obligations.PlainLoadsReadTheStoredWord : Prop :=
  ∀ (dr : Reg) (s : State),
    (∀ o : BitVec 9, pcRelative o s ≠ Config.kbsrAddr → ∃ t, exec (.ld dr o) s = .next t ∧
      t.reg dr = s.mem.read (pcRelative o s) ∧ OnlyDefines dr s t) ∧
    (∀ (b : Reg) (o : BitVec 6), basePlusOffset b o s ≠ Config.kbsrAddr → ∃ t, exec (.ldr dr b o) s = .next t ∧
      t.reg dr = s.mem.read (basePlusOffset b o s) ∧ OnlyDefines dr s t) ∧
    (∀ o : BitVec 9, pcRelative o s ≠ Config.kbsrAddr → s.mem.read (pcRelative o s) ≠ Config.kbsrAddr →
      ∃ t, exec (.ldi dr o) s = .next t ∧ t.reg dr = s.mem.read (s.mem.read (pcRelative o s)) ∧ OnlyDefines dr s t)

/-- LEA: DR gets the PC-relative address itself, the flag follows it, no memory is read and nothing else changes
(42_load_store.md R133). -/
def Obligations.LeaDefinesTheAddress : Prop :=
  ∀ (dr : Reg) (o : BitVec 9) (s : State),
    ∃ t, exec (.lea dr o) s = .next t ∧ ((t.reg dr).toNat : Int) = (s.pc.toNat + o.toInt) % 65536 ∧ OnlyDefines dr s t

/-- ST and STR store SR's word at the PC-relative or base address and change no other word, no register, no flag and nothing
of the host's; STI stores at the address its pointer read returned, and what else it may change is what that read may
(42_load_store.md R134 to R136). -/
def Obligations.StoresWriteExactlyOneWord : Prop :=
  ∀ (sr : Reg) (s : State),
    (∀ o : BitVec 9, ∃ t, exec (.st sr o) s = .next t ∧ t.mem.read (pcRelative o s) = s.reg sr ∧
      WordsKeptBut [pcRelative o s] s t ∧ RegsKeptBut [] s t ∧ t.pc = s.pc ∧ t.cond = s.cond ∧ LifeKept s t ∧ HostKept s t) ∧
    (∀ (b : Reg) (o : BitVec 6), ∃ t, exec (.str sr b o) s = .next t ∧ t.mem.read (basePlusOffset b o s) = s.reg sr ∧
      WordsKeptBut [basePlusOffset b o s] s t ∧ RegsKeptBut [] s t ∧ t.pc = s.pc ∧ t.cond = s.cond ∧ LifeKept s t ∧
      HostKept s t) ∧
    (∀ o : BitVec 9, ∃ t, exec (.sti sr o) s = .next t ∧ t.mem.read (indirect o s).1 = s.reg sr ∧
      WordsKeptBut [(indirect o s).1] (indirect o s).2 t ∧
      WordsKeptBut ((indirect o s).1 :: touchedByRead (pcRelative o s)) s t ∧
      RegsKeptBut [] s t ∧ t.pc = s.pc ∧ t.cond = s.cond ∧ LifeKept s t ∧ HostKept (indirect o s).2 t)

/-- STI with its pointer away from the keyboard status address stores SR where the stored pointer points and changes no other
word; the host is not asked (42_load_store.md R135, 20_memory.md R52). -/
def Obligations.PlainIndirectStoreWritesThroughThePointer : Prop :=
  ∀ (sr : Reg) (o : BitVec 9) (s : State), pcRelative o s ≠ Config.kbsrAddr →
    ∃ t, exec (.sti sr o) s = .next t ∧ t.mem.read (s.mem.read (pcRelative o s)) = s.reg sr ∧
      WordsKeptBut [s.mem.read (pcRelative o s)] s t ∧ RegsKeptBut [] s t ∧ t.pc = s.pc ∧ t.cond = s.cond ∧
      LifeKept s t ∧ HostKept s t

/-- The next fetch sees a store: after an ST, STI or STR that has stored at the next instruction's address, the very next step
executes the word just stored (20_memory.md R66; away from the keyboard status address, where the fetch updates the word
first). -/
def Obligations.NextFetchSeesTheStore : Prop :=
  ∀ (i : Instr) (sr : Reg) (s t : State), s.running = true → s.abortRequested = false → s.busy = none →
    s.pc ≠ Config.kbsrAddr → storesTo i s = some s.pc → storedRegister i = some sr → exec i s = .next t →
    step t = exec (decode (s.reg sr)) { t with pc := s.pc + 1 }

/-- Whichever instruction runs, every word of memory but the one it stores to and the two keyboard words reads as before; the
keyboard words too, where the host was not asked (20_memory.md R55, R61, R64). -/
def Obligations.MemoryChangesOnlyByStoresAndStatusReads : Prop :=
  ∀ (i : Instr) (s t : State), exec i s = .next t →
    (∀ a : Word, a ≠ Config.kbsrAddr → a ≠ Config.kbdrAddr → storesTo i s ≠ some a → t.mem.read a = s.mem.read a) ∧
    (t.hostScript = s.hostScript → t.hostCalls = s.hostCalls →
      ∀ a : Word, storesTo i s ≠ some a → t.mem.read a = s.mem.read a)

/-- A register keeps its word unless it is one the read/write matrix of 10_state.md R21 gives the instruction: DR, R7 for JSR
and JSRR, R0 for GETC and IN; TRAP never writes R7 (log entry 20). -/
def Obligations.OnlyTheMatrixsRegistersAreWritten : Prop :=
  ∀ (i : Instr) (s : State), ∃ t, exec i s = .next t ∧ RegsKeptBut (writesOf i) s t

/-! ## TRAP -/

/-- TRAP with each of the six vectors is the routine of that name (43_trap.md R150). -/
def Obligations.TrapSelectsTheRoutine : Prop :=
  ∀ s : State,
    exec (.trap 0x20#8) s = exec .getc s ∧ exec (.trap 0x21#8) s = exec .out s ∧ exec (.trap 0x22#8) s = exec .puts s ∧
    exec (.trap 0x23#8) s = exec .inEcho s ∧ exec (.trap 0x24#8) s = exec .putsp s ∧ exec (.trap 0x25#8) s = exec .halt s

/-- GETC when the host answers with a character: R0 gets it zero-extended, that one answer is consumed, nothing is written to
the output, and no flag, word, other register or anything else changes (43_trap.md R152; zero-extension by log entry 21, no
flag by 20, the form of the host's answers by 10). -/
def Obligations.GetcReadsACharacter : Prop :=
  ∀ (s : State) (c : Byte), (askHost s).1 = some c →
    ∃ t, exec .getc s = .next t ∧ (t.reg .r0).toNat = c.toNat ∧ RegsKeptBut [.r0] s t ∧ HostKept (askHost s).2 t ∧
      t.abortRequested = s.abortRequested ∧ t.output = s.output ∧ t.cond = s.cond ∧ t.pc = s.pc ∧
      t.running = s.running ∧ t.busy = none ∧ WordsKeptBut [] s t

/-- IN when the host answers with a character: the prompt and the character itself are written, R0 gets it zero-extended, that
one answer is consumed, and no flag, word, other register or anything else changes (43_trap.md R155; the prompt's bytes are
open, log entry 9; zero-extension 21, no flag 20, the form of the host's answers 10). -/
def Obligations.InPromptsReadsAndEchoes : Prop :=
  ∀ (s : State) (c : Byte), (askHost s).1 = some c →
    ∃ t, exec .inEcho s = .next t ∧ t.output = s.output ++ Config.inPrompt ++ [c] ∧ (t.reg .r0).toNat = c.toNat ∧
      RegsKeptBut [.r0] s t ∧ HostKept (askHost s).2 t ∧ t.abortRequested = s.abortRequested ∧ t.cond = s.cond ∧
      t.pc = s.pc ∧ t.running = s.running ∧ t.busy = none ∧ WordsKeptBut [] s t

/-- Whatever the host does, GETC and IN complete a step of the model: with the character it answers, zero-extended in R0, or
waiting, and then nothing has changed but the host's own side, the wait itself and, for IN, the prompt already written; no
flag is set in either case (10_state.md R35, 43_trap.md R152, R155, R159, 60_exceptions.md R195; that a wait is a next state
is the model's choice, log entry 11; the form of the host's answers by 10, the open prompt by 9, zero-extension by the spec's
decision D13, log entry 21; that no flag is set is the spec's reading C3, log entry 20). -/
def Obligations.BlockingReadsEndOrWait : Prop :=
  ∀ s : State,
    ((askHost s).1 = none →
      exec .getc s = .next { (askHost s).2 with busy := some .getc } ∧
      exec .inEcho s = .next { (askHost s).2 with output := s.output ++ Config.inPrompt, busy := some .inEcho }) ∧
    (∀ c : Byte, (askHost s).1 = some c →
      (∃ t, exec .getc s = .next t ∧ t.busy = none ∧ t.output = s.output ∧ (t.reg .r0).toNat = c.toNat) ∧
      (∃ t, exec .inEcho s = .next t ∧ t.busy = none ∧ t.output = s.output ++ Config.inPrompt ++ [c] ∧
        (t.reg .r0).toNat = c.toNat)) ∧
    (∀ t, exec .getc s = .next t ∨ exec .inEcho s = .next t →
      RegsKeptBut [.r0] s t ∧ t.cond = s.cond ∧ t.pc = s.pc ∧ t.running = s.running ∧
      t.abortRequested = s.abortRequested ∧ WordsKeptBut [] s t)

/-- OUT appends the low byte of R0 to the output and changes nothing else (43_trap.md R153). -/
def Obligations.OutWritesTheLowByte : Prop :=
  ∀ s : State, ∃ t, exec .out s = .next t ∧ t = { s with output := t.output } ∧
    ∃ b : Byte, t.output = s.output ++ [b] ∧ b.toNat = (s.reg .r0).toNat % 256

/-- PUTS writes the low byte of each word from the address in R0 up to the first zero word, in order, and nothing of it or
after it, wherever the pointer wraps, and changes nothing else: R0 and memory stay (43_trap.md R154; for a string that does
not run over the keyboard status word; R0 unchanged is the spec's decision D17, log entry 22). -/
def Obligations.PutsWritesTheStringUpToTheZeroWord : Prop :=
  ∀ (s : State) (ws : List Word), StringAt s.mem (s.reg .r0) ws → ws.length < 65536 →
    Config.kbsrAddr ∉ addressesFrom (s.reg .r0) (ws.length + 1) → s.busy = none →
    exec .puts s = .next { s with output := s.output ++ ws.map (fun w => BitVec.ofNat 8 (w.toNat % 256)) }

/-- PUTSP writes each word's low byte and then its high byte, the high byte left out when it is zero, from the address in R0
up to the first zero word, and changes nothing else (43_trap.md R156; for a string that does not run over the keyboard
status word; a zero low byte is written, the spec's decision D27, log entry 22). -/
def Obligations.PutspWritesThePackedString : Prop :=
  ∀ (s : State) (ws : List Word), StringAt s.mem (s.reg .r0) ws → ws.length < 65536 →
    Config.kbsrAddr ∉ addressesFrom (s.reg .r0) (ws.length + 1) → s.busy = none →
    exec .putsp s = .next
      { s with output := s.output ++ ws.flatMap (fun w =>
          if w.toNat < 256 then [BitVec.ofNat 8 (w.toNat % 256)]
          else [BitVec.ofNat 8 (w.toNat % 256), BitVec.ofNat 8 (w.toNat / 256)]) }

/-- A string that runs over the keyboard status word polls the host once, for PUTS and for PUTSP. With no key ready the read
clears the word, and the cleared word ends the string. With a key ready the updated status word, which is not zero, is
written like any word and the string goes on after it, over the updated data word, up to its zero word (20_memory.md R57,
43_trap.md R154, R156; that the routines' reads have the side effect by log entry 15, how the top bit is set by 8, the form
of the host's answers by 10, R0 unchanged and a zero low byte written by 22). -/
def Obligations.StringsOverTheStatusWordPoll : Prop :=
  ∀ (s : State) (ws : List Word), WordsAt s.mem (s.reg .r0) ws → s.reg .r0 + BitVec.ofNat 16 ws.length = Config.kbsrAddr →
    s.busy = none →
    ((askHost s).1 = none → ws.length < 65536 →
      exec .puts s = .next
        { (askHost s).2 with output := s.output ++ ws.flatMap putsText, mem := s.mem.write Config.kbsrAddr 0x0000 } ∧
      exec .putsp s = .next
        { (askHost s).2 with output := s.output ++ ws.flatMap putspText, mem := s.mem.write Config.kbsrAddr 0x0000 }) ∧
    (∀ (c : Byte) (vs : List Word), (askHost s).1 = some c →
      StringAt (memAfterKey s.mem c) (Config.kbsrAddr + 1) vs → ws.length + 1 + vs.length < 65536 →
      exec .puts s = .next
        { (askHost s).2 with
          output := s.output ++ (ws ++ (s.mem.read Config.kbsrAddr ||| 0x8000) :: vs).flatMap putsText
          mem := memAfterKey s.mem c } ∧
      exec .putsp s = .next
        { (askHost s).2 with
          output := s.output ++ (ws ++ (s.mem.read Config.kbsrAddr ||| 0x8000) :: vs).flatMap putspText
          mem := memAfterKey s.mem c })

/-- PUTS and PUTSP in every state: the routine ends, or it has written one byte (PUTSP: one or two) for each of the 65536
addresses and goes on, in the model's next step, at the pointer it began with; registers, `pc` and flag stay (43_trap.md
R154, R156, 10_state.md R33 (c), 93_implementation_defined.md U9; that the walk pauses there is the model's choice, log entry
13; that R0 stays and that the pointer wraps is the spec's decision D17, log entry 22; that no flag is set is the spec's
reading C3, log entry 20). -/
def Obligations.StringRoutinesEndOrWriteAWholeLap : Prop :=
  ∀ s : State,
    (∃ t, exec .puts s = .next t ∧ t.regs = s.regs ∧ t.pc = s.pc ∧ t.cond = s.cond ∧ t.running = s.running ∧
      (t.busy = none ∨ (t.busy = some (.puts (s.reg .r0)) ∧ t.output.length = s.output.length + 65536))) ∧
    (∃ t, exec .putsp s = .next t ∧ t.regs = s.regs ∧ t.pc = s.pc ∧ t.cond = s.cond ∧ t.running = s.running ∧
      (t.busy = none ∨ (t.busy = some (.putsp (s.reg .r0)) ∧ s.output.length + 65536 ≤ t.output.length ∧
        t.output.length ≤ s.output.length + 131072)))

/-- A string routine that has not ended goes on in the next step as the routine itself would from its pointer, an abort asked
for meanwhile or not (10_state.md R33 (c), 60_exceptions.md R183; that it goes on in another step of the model is the model's
choice, log entry 13). -/
def Obligations.UnfinishedStringGoesOnFromItsPointer : Prop :=
  ∀ (s : State) (a : Word), s.running = true →
    (s.busy = some (.puts a) →
      ∃ t u, step s = .next t ∧ exec .puts (s.setReg .r0 a) = .next u ∧ t = { u with regs := s.regs }) ∧
    (s.busy = some (.putsp a) →
      ∃ t u, step s = .next t ∧ exec .putsp (s.setReg .r0 a) = .next u ∧ t = { u with regs := s.regs })

/-- HALT writes the notice, clears `running`, and changes nothing else; no step after it changes anything (43_trap.md R157; the
notice's bytes are open, log entry 9; the halted step by log entry 12). -/
def Obligations.HaltStopsTheRun : Prop :=
  ∀ s : State, ∃ t, exec .halt s = .next t ∧
    t = { s with output := s.output ++ Config.haltNotice, running := false } ∧ step t = .next t

/-! ## The whole machine -/

/-- Only HALT clears `running`, and no instruction sets it (10_state.md R27). -/
def Obligations.OnlyHaltClearsRunning : Prop :=
  ∀ (i : Instr) (s t : State), exec i s = .next t →
    (i = .halt ∨ i = .trap 0x25#8 → t.running = false) ∧ (i ≠ .halt → i ≠ .trap 0x25#8 → t.running = s.running)

/-- A halted machine stays halted, and a running one stops running in a step only by fetching HALT (10_state.md R27, R32; the
halted step by log entry 12). -/
def Obligations.RunningIsClearedOnlyByFetchingHalt : Prop :=
  ∀ s t : State, step s = .next t →
    (s.running = false → t.running = false) ∧
    (s.running = true → t.running = false → s.busy = none ∧ decode (fetch s).1 = .halt)

/-- From every state in which memory is canonical and a halted machine has no unfinished routine, every step leads to such a
state (10_state.md R28, R32; the canonical form is the model's, log entry 23). -/
def Obligations.StepKeepsTheInvariant : Prop :=
  ∀ s t : State, s.Inv → step s = .next t → t.Inv

/-- The state right after reset meets the invariant: memory, every word zero, is in its canonical form (10_state.md R39; that form
is the model's own, log entry 23). The invariant's other half speaks of halted machines alone and the reset machine runs, so
this says nothing of `busy`. -/
def Obligations.ResetMeetsTheInvariant : Prop :=
  State.reset.Inv

/-- Whatever bytes an image holds, the machine before its first step meets the invariant: the load keeps memory in its
canonical form. No rule of the spec states this: the canonical form is the model's own, log entry 23. -/
def Obligations.EveryBootMeetsTheInvariant : Prop :=
  ∀ bytes : List Byte, (State.boot bytes).Inv

/-- The output stream only grows, at its end: what was written stays written, in order, over any number of steps
(10_state.md R36). -/
def Obligations.OutputOnlyGrowsAtItsEnd : Prop :=
  ∀ (k : Nat) (s t : State), core.run k s = .next t → ∃ bytes : List Byte, t.output = s.output ++ bytes

/-- Two memories in canonical form that read alike at every address are equal: equal memories are equal data (10_state.md R28;
the canonical form is the model's, log entry 23). -/
def Obligations.CanonicalMemoriesThatReadAlikeAreEqual : Prop :=
  ∀ m m' : Memory, m.wf = true → m'.wf = true → (∀ a : Word, m.read a = m'.read a) → m = m'

/-! ## The image -/

/-- The words of an image: word j is byte 2j times 256 plus byte 2j + 1, for every j with both bytes in the stream, and there are
half as many words as bytes; word 0 is the origin, the others, one fewer than half the bytes, are the payload loaded starting
at that address (70_reset_and_hazards.md R211). -/
def Obligations.ImageWordsAreBigEndian : Prop :=
  ∀ bytes : List Byte,
    (imageWords bytes).length = bytes.length / 2 ∧
    (∀ (j : Nat) (hi lo : Byte), bytes[2 * j]? = some hi → bytes[2 * j + 1]? = some lo →
      ∃ w : Word, (imageWords bytes)[j]? = some w ∧ w.toNat = hi.toNat * 256 + lo.toNat) ∧
    ∀ (origin : Word) (payload : List Word), imageWords bytes = origin :: payload →
      payload.length = bytes.length / 2 - 1 ∧
      ∀ (k : Nat) (w : Word), payload[k]? = some w → origin.toNat + k < 65536 →
        (loadImage bytes).read (origin + BitVec.ofNat 16 k) = w

/-- The load puts the k-th payload word at the origin plus k as long as that is an address, drops the words past the end of the
address space, and leaves every other word `0x0000` (70_reset_and_hazards.md R212). -/
def Obligations.LoadPlacesThePayloadAtTheOrigin : Prop :=
  ∀ (bytes : List Byte) (origin : Word) (payload : List Word), imageWords bytes = origin :: payload →
    ∀ a : Word, (loadImage bytes).read a =
      (if origin.toNat ≤ a.toNat then payload.getD (a.toNat - origin.toNat) 0x0000 else 0x0000)

/-- The machine before its first step: whatever the image, `pc` is the fixed start address, the machine runs, the output is
empty, and no image leaves memory all zero (70_reset_and_hazards.md R213, R214; the start address by log entry 4, R0 to R7 zero
by 5, the flag ZERO by 6, running by 7). -/
def Obligations.BootStartsAtTheFixedAddress : Prop :=
  ∀ bytes : List Byte,
    (State.boot bytes).pc = 0x3000 ∧ (State.boot bytes).running = true ∧ (State.boot bytes).output = [] ∧
    (State.boot bytes).cond = .z ∧ (∀ r : Reg, (State.boot bytes).reg r = 0x0000) ∧
    (bytes.length < 2 → ∀ a : Word, (State.boot bytes).mem.read a = 0x0000)

/-! ## The host's side -/

/-- The host's answers are taken in order, the script's next one while there is one and a free one of its own number beyond,
and asking changes nothing but the host's side (10_state.md R34, R35, R38 (a); the form of the host's answers is the model's
choice, log entry 10). -/
def Obligations.HostAnswersAreTakenInOrder : Prop :=
  ∀ s : State,
    (∀ (answer : HostAnswer) (rest : List HostAnswer), s.hostScript = answer :: rest →
      askHost s = (answer, { s with hostScript := rest })) ∧
    (s.hostScript = [] → askHost s = (Config.freeAnswer s.hostCalls, { s with hostCalls := s.hostCalls + 1 }))

/-- The abort is the host's alone: no instruction and no step, a wait's or an unfinished string's included, raises it or takes
it back (10_state.md R37, 60_exceptions.md R186: the core cannot mask, detect or handle it; that it is a flag of the state is
the model's choice, log entry 14). -/
def Obligations.OnlyTheHostRaisesTheAbort : Prop :=
  (∀ (i : Instr) (s t : State), exec i s = .next t → t.abortRequested = s.abortRequested) ∧
  (∀ s t : State, step s = .next t → t.abortRequested = s.abortRequested)
end

