-- ==== Sys2Proof/Laws/Decode.lean ====
section
/-! SUPPORT. The laws of instruction fields: cutting a field from a word laid out of fields gives that field, register numbers
and registers correspond one to one, and an encoding is unfolded field by field. -/

namespace Sys2Proof

/-! ## The opcode numbers -/

/-- Each opcode is found again from its number: no two opcodes share one. -/
@[simp] theorem opcodeOf_opcodeMap (o : Opcode) : opcodeOf (Config.opcodeMap o) = o := by
  cases o <;> decide

/-- Each of the sixteen numbers is some opcode's (30_encoding.md R85). -/
theorem opcodeMap_opcodeOf : ∀ number : BitVec 4, Config.opcodeMap (opcodeOf number) = number := by
  decide

theorem field_getLsbD (width p : Nat) (x : Word) (i : Nat) :
    (field width p x).getLsbD i = (decide (i < width) && x.getLsbD (p + i)) := by
  simp [field]

theorem fieldAt_getLsbD {width : Nat} (v : BitVec width) (p i : Nat) :
    (fieldAt v p).getLsbD i = (decide (i < 16) && !decide (i < p) && v.getLsbD (i - p)) := by
  simp only [fieldAt, BitVec.getLsbD_shiftLeft, BitVec.getLsbD_setWidth]
  by_cases h : i < 16
  · have : i - p < 16 := by omega
    simp [h, this]
  · simp [h]

theorem field_or (width p : Nat) (x y : Word) : field width p (x ||| y) = field width p x ||| field width p y := by
  ext i
  simp [field]

theorem bitAt_or (p : Nat) (x y : Word) : bitAt p (x ||| y) = (bitAt p x || bitAt p y) := by
  simp [bitAt]

theorem bitAt_fieldAt {width : Nat} (v : BitVec width) (p i : Nat) :
    bitAt i (fieldAt v p) = (decide (i < 16) && !decide (i < p) && v.getLsbD (i - p)) :=
  fieldAt_getLsbD v p i

theorem field_fieldAt_same {width : Nat} (v : BitVec width) (p : Nat) (h : p + width ≤ 16) :
    field width p (fieldAt v p) = v := by
  apply BitVec.eq_of_getLsbD_eq
  intro i hi
  have h1 : p + i < 16 := by omega
  simp only [field_getLsbD, fieldAt_getLsbD]
  simp [hi, h1]

theorem field_fieldAt_disjoint {m n : Nat} (v : BitVec m) (p q : Nat) (h : p + m ≤ q ∨ q + n ≤ p) :
    field n q (fieldAt v p) = 0 := by
  apply BitVec.eq_of_getLsbD_eq
  intro i hi
  simp only [field_getLsbD, fieldAt_getLsbD]
  rcases h with h | h
  · have : v.getLsbD (q + i - p) = false := BitVec.getLsbD_of_ge _ _ (by omega)
    simp [this]
  · have : q + i < p := by omega
    simp [this]

/-- The top four bits of an opcode's field are its number. -/
theorem field_opcodeField (o : Opcode) : field 4 12 (opcodeField o) = Config.opcodeMap o :=
  field_fieldAt_same (Config.opcodeMap o) 12 (by decide)

/-- Below the top four bits an opcode's field is zero. -/
theorem field_opcodeField_below (width p : Nat) (o : Opcode) (h : p + width ≤ 12) : field width p (opcodeField o) = 0 :=
  field_fieldAt_disjoint (Config.opcodeMap o) 12 p (.inr h)

@[simp] theorem Reg.ofBits_toBits (r : Reg) : Reg.ofBits r.toBits = r := by
  cases r <;> rfl

@[simp] theorem Reg.toBits_ofBits (b : BitVec 3) : (Reg.ofBits b).toBits = b := by
  revert b; decide

theorem Reg.toBits_injective (r q : Reg) (h : r.toBits = q.toBits) : r = q := by
  simpa using congrArg Reg.ofBits h

end Sys2Proof
end

