-- ==== Sys2Proof/Laws/Memory.lean ====
section
/-! SUPPORT. The laws of the stored words: a read after a write, and the canonical form every write keeps. They hold of every
list; only the canonical form itself needs the canonical form. -/

namespace Sys2Proof.Machine

/-! ## Lists of cells -/

theorem Memory.readCells_erase_same (cells : List Cell) (k : Nat) :
    Memory.readCells (Memory.eraseCells cells k) k = Memory.unlisted := by
  induction cells with
  | nil => rfl
  | cons c rest ih =>
    obtain ⟨a, w⟩ := c
    simp only [Memory.eraseCells]
    split
    · exact ih
    · next h => simp [Memory.readCells, h, ih]

theorem Memory.readCells_erase_other (cells : List Cell) (k j : Nat) (hj : j ≠ k) :
    Memory.readCells (Memory.eraseCells cells k) j = Memory.readCells cells j := by
  induction cells with
  | nil => rfl
  | cons c rest ih =>
    obtain ⟨a, w⟩ := c
    simp only [Memory.eraseCells]
    split
    · next h => subst h; simp [Memory.readCells, hj, ih]
    · simp [Memory.readCells, ih]

theorem Memory.readCells_insert_same (cells : List Cell) (k : Nat) (v : Word) :
    Memory.readCells (Memory.insertCells cells k v) k = v := by
  induction cells with
  | nil => simp [Memory.insertCells, Memory.readCells]
  | cons c rest ih =>
    obtain ⟨a, w⟩ := c
    simp only [Memory.insertCells]
    split
    · simp [Memory.readCells]
    · split
      · simp [Memory.readCells]
      · next h => simp [Memory.readCells, h, ih]

theorem Memory.readCells_insert_other (cells : List Cell) (k j : Nat) (v : Word) (hj : j ≠ k) :
    Memory.readCells (Memory.insertCells cells k v) j = Memory.readCells cells j := by
  induction cells with
  | nil => simp [Memory.insertCells, Memory.readCells, hj]
  | cons c rest ih =>
    obtain ⟨a, w⟩ := c
    simp only [Memory.insertCells]
    split
    · simp [Memory.readCells, hj]
    · split
      · next h => subst h; simp [Memory.readCells, hj]
      · simp [Memory.readCells, ih]

/-! ## Read after write -/

@[simp] theorem Memory.read_write_same (m : Memory) (a v : Word) : (m.write a v).read a = v := by
  unfold Memory.write Memory.read
  split
  · next h => rw [Memory.readCells_erase_same, h]
  · exact Memory.readCells_insert_same m.cells a.toNat v

theorem Memory.read_write_other (m : Memory) (a b v : Word) (h : b ≠ a) : (m.write a v).read b = m.read b := by
  have hn : b.toNat ≠ a.toNat := fun e => h (BitVec.eq_of_toNat_eq e)
  unfold Memory.write Memory.read
  split
  · exact Memory.readCells_erase_other m.cells a.toNat b.toNat hn
  · exact Memory.readCells_insert_other m.cells a.toNat b.toNat v hn

theorem Memory.read_write (m : Memory) (a b v : Word) : (m.write a v).read b = if b = a then v else m.read b := by
  split
  · next h => subst h; simp
  · next h => exact Memory.read_write_other m a b v h

@[simp] theorem Memory.read_empty (a : Word) : Memory.read { cells := [] } a = 0x0000 := rfl

/-! ## The canonical form -/

theorem Memory.cellsWf_cons (lo a : Nat) (v : Word) (rest : List Cell) :
    Memory.cellsWf lo ((a, v) :: rest) = true ↔
      lo ≤ a ∧ a < 65536 ∧ v ≠ Memory.unlisted ∧ Memory.cellsWf (a + 1) rest = true := by
  simp [Memory.cellsWf, and_assoc]

theorem Memory.cellsWf_mono (lo lo' : Nat) (cells : List Cell) (hle : lo ≤ lo')
    (h : Memory.cellsWf lo' cells = true) : Memory.cellsWf lo cells = true := by
  cases cells with
  | nil => rfl
  | cons c rest =>
    obtain ⟨a, v⟩ := c
    rw [Memory.cellsWf_cons] at h ⊢
    exact ⟨Nat.le_trans hle h.1, h.2⟩

theorem Memory.cellsWf_erase (lo : Nat) (cells : List Cell) (k : Nat) (h : Memory.cellsWf lo cells = true) :
    Memory.cellsWf lo (Memory.eraseCells cells k) = true := by
  induction cells generalizing lo with
  | nil => rfl
  | cons c rest ih =>
    obtain ⟨a, v⟩ := c
    rw [Memory.cellsWf_cons] at h
    simp only [Memory.eraseCells]
    split
    · exact Memory.cellsWf_mono lo (a + 1) _ (by omega) (ih (a + 1) h.2.2.2)
    · rw [Memory.cellsWf_cons]
      exact ⟨h.1, h.2.1, h.2.2.1, ih (a + 1) h.2.2.2⟩

theorem Memory.cellsWf_insert (lo : Nat) (cells : List Cell) (k : Nat) (v : Word) (hlo : lo ≤ k) (hk : k < 65536)
    (hv : v ≠ Memory.unlisted) (h : Memory.cellsWf lo cells = true) :
    Memory.cellsWf lo (Memory.insertCells cells k v) = true := by
  induction cells generalizing lo with
  | nil => simp [Memory.insertCells, Memory.cellsWf, hlo, hk, hv]
  | cons c rest ih =>
    obtain ⟨a, w⟩ := c
    rw [Memory.cellsWf_cons] at h
    simp only [Memory.insertCells]
    split
    · next hka =>
      rw [Memory.cellsWf_cons, Memory.cellsWf_cons]
      exact ⟨hlo, hk, hv, hka, h.2.1, h.2.2.1, h.2.2.2⟩
    · split
      · next hka =>
        subst hka
        rw [Memory.cellsWf_cons]
        exact ⟨hlo, hk, hv, h.2.2.2⟩
      · rw [Memory.cellsWf_cons]
        exact ⟨h.1, h.2.1, h.2.2.1, ih (a + 1) (by omega) h.2.2.2⟩

/-- Every write keeps the canonical form. -/
theorem Memory.wf_write (m : Memory) (a v : Word) (h : m.wf = true) : (m.write a v).wf = true := by
  unfold Memory.write
  split
  · exact Memory.cellsWf_erase 0 m.cells a.toNat h
  · next hv => exact Memory.cellsWf_insert 0 m.cells a.toNat v (Nat.zero_le _) a.isLt hv h

theorem Memory.wf_empty : Memory.wf { cells := [] } = true := rfl

theorem memWrite_keeps_wf (a v : Word) (s : State) (h : s.mem.wf = true) : (memWrite a v s).mem.wf = true :=
  Memory.wf_write s.mem a v h

end Sys2Proof.Machine
end

