-- ==== Sys2Proof/Laws/State.lean ====
section
/-! SUPPORT. The state's fields after each update: one lemma per field per update, so that no later proof unfolds a record
update; and the register file's laws. -/

namespace Sys2Proof.Machine

/-! ## The register file -/

@[simp] theorem RegFile.get_set_same (f : RegFile) (r : Reg) (v : Word) : (f.set r v).get r = v := by
  cases r <;> rfl

theorem RegFile.get_set_other (f : RegFile) (r q : Reg) (v : Word) (h : q ≠ r) : (f.set r v).get q = f.get q := by
  cases r <;> cases q <;> first | rfl | exact absurd rfl h

theorem RegFile.ext_get (f g : RegFile) (h : ∀ r, f.get r = g.get r) : f = g := by
  obtain ⟨a0, a1, a2, a3, a4, a5, a6, a7⟩ := f
  obtain ⟨b0, b1, b2, b3, b4, b5, b6, b7⟩ := g
  have h0 := h .r0; have h1 := h .r1; have h2 := h .r2; have h3 := h .r3
  have h4 := h .r4; have h5 := h .r5; have h6 := h .r6; have h7 := h .r7
  simp only [RegFile.get] at h0 h1 h2 h3 h4 h5 h6 h7
  simp [*]

/-! ## setReg -/

@[simp] theorem State.setReg_regs (s : State) (r : Reg) (v : Word) : (s.setReg r v).regs = s.regs.set r v := rfl
@[simp] theorem State.setReg_pc (s : State) (r : Reg) (v : Word) : (s.setReg r v).pc = s.pc := rfl
@[simp] theorem State.setReg_cond (s : State) (r : Reg) (v : Word) : (s.setReg r v).cond = s.cond := rfl
@[simp] theorem State.setReg_running (s : State) (r : Reg) (v : Word) : (s.setReg r v).running = s.running := rfl
@[simp] theorem State.setReg_mem (s : State) (r : Reg) (v : Word) : (s.setReg r v).mem = s.mem := rfl
@[simp] theorem State.setReg_output (s : State) (r : Reg) (v : Word) : (s.setReg r v).output = s.output := rfl
@[simp] theorem State.setReg_busy (s : State) (r : Reg) (v : Word) : (s.setReg r v).busy = s.busy := rfl
@[simp] theorem State.setReg_abortRequested (s : State) (r : Reg) (v : Word) :
    (s.setReg r v).abortRequested = s.abortRequested := rfl
@[simp] theorem State.setReg_hostScript (s : State) (r : Reg) (v : Word) : (s.setReg r v).hostScript = s.hostScript := rfl
@[simp] theorem State.setReg_hostCalls (s : State) (r : Reg) (v : Word) : (s.setReg r v).hostCalls = s.hostCalls := rfl

@[simp] theorem State.setReg_reg_same (s : State) (r : Reg) (v : Word) : (s.setReg r v).reg r = v :=
  RegFile.get_set_same s.regs r v

theorem State.setReg_reg_other (s : State) (r q : Reg) (v : Word) (h : q ≠ r) : (s.setReg r v).reg q = s.reg q :=
  RegFile.get_set_other s.regs r q v h

/-! ## setPc -/

@[simp] theorem State.setPc_regs (s : State) (a : Word) : (s.setPc a).regs = s.regs := rfl
@[simp] theorem State.setPc_reg (s : State) (a : Word) (r : Reg) : (s.setPc a).reg r = s.reg r := rfl
@[simp] theorem State.setPc_pc (s : State) (a : Word) : (s.setPc a).pc = a := rfl
@[simp] theorem State.setPc_cond (s : State) (a : Word) : (s.setPc a).cond = s.cond := rfl
@[simp] theorem State.setPc_running (s : State) (a : Word) : (s.setPc a).running = s.running := rfl
@[simp] theorem State.setPc_mem (s : State) (a : Word) : (s.setPc a).mem = s.mem := rfl
@[simp] theorem State.setPc_output (s : State) (a : Word) : (s.setPc a).output = s.output := rfl
@[simp] theorem State.setPc_busy (s : State) (a : Word) : (s.setPc a).busy = s.busy := rfl
@[simp] theorem State.setPc_abortRequested (s : State) (a : Word) : (s.setPc a).abortRequested = s.abortRequested := rfl
@[simp] theorem State.setPc_hostScript (s : State) (a : Word) : (s.setPc a).hostScript = s.hostScript := rfl
@[simp] theorem State.setPc_hostCalls (s : State) (a : Word) : (s.setPc a).hostCalls = s.hostCalls := rfl

/-! ## memWrite -/

@[simp] theorem memWrite_regs (a v : Word) (s : State) : (memWrite a v s).regs = s.regs := rfl
@[simp] theorem memWrite_reg (a v : Word) (s : State) (r : Reg) : (memWrite a v s).reg r = s.reg r := rfl
@[simp] theorem memWrite_pc (a v : Word) (s : State) : (memWrite a v s).pc = s.pc := rfl
@[simp] theorem memWrite_cond (a v : Word) (s : State) : (memWrite a v s).cond = s.cond := rfl
@[simp] theorem memWrite_running (a v : Word) (s : State) : (memWrite a v s).running = s.running := rfl
@[simp] theorem memWrite_mem (a v : Word) (s : State) : (memWrite a v s).mem = s.mem.write a v := rfl
@[simp] theorem memWrite_output (a v : Word) (s : State) : (memWrite a v s).output = s.output := rfl
@[simp] theorem memWrite_busy (a v : Word) (s : State) : (memWrite a v s).busy = s.busy := rfl
@[simp] theorem memWrite_abortRequested (a v : Word) (s : State) :
    (memWrite a v s).abortRequested = s.abortRequested := rfl
@[simp] theorem memWrite_hostScript (a v : Word) (s : State) : (memWrite a v s).hostScript = s.hostScript := rfl
@[simp] theorem memWrite_hostCalls (a v : Word) (s : State) : (memWrite a v s).hostCalls = s.hostCalls := rfl

/-! ## emit -/

@[simp] theorem State.emit_regs (s : State) (bs : List Byte) : (s.emit bs).regs = s.regs := rfl
@[simp] theorem State.emit_reg (s : State) (bs : List Byte) (r : Reg) : (s.emit bs).reg r = s.reg r := rfl
@[simp] theorem State.emit_pc (s : State) (bs : List Byte) : (s.emit bs).pc = s.pc := rfl
@[simp] theorem State.emit_cond (s : State) (bs : List Byte) : (s.emit bs).cond = s.cond := rfl
@[simp] theorem State.emit_running (s : State) (bs : List Byte) : (s.emit bs).running = s.running := rfl
@[simp] theorem State.emit_mem (s : State) (bs : List Byte) : (s.emit bs).mem = s.mem := rfl
@[simp] theorem State.emit_output (s : State) (bs : List Byte) : (s.emit bs).output = s.output ++ bs := rfl
@[simp] theorem State.emit_busy (s : State) (bs : List Byte) : (s.emit bs).busy = s.busy := rfl
@[simp] theorem State.emit_abortRequested (s : State) (bs : List Byte) :
    (s.emit bs).abortRequested = s.abortRequested := rfl
@[simp] theorem State.emit_hostScript (s : State) (bs : List Byte) : (s.emit bs).hostScript = s.hostScript := rfl
@[simp] theorem State.emit_hostCalls (s : State) (bs : List Byte) : (s.emit bs).hostCalls = s.hostCalls := rfl

@[simp] theorem State.emit_nil (s : State) : s.emit [] = s := by
  simp [State.emit]

theorem State.emit_emit (s : State) (bs cs : List Byte) : (s.emit bs).emit cs = s.emit (bs ++ cs) := by
  simp [State.emit]

/-! ## setBusy -/

@[simp] theorem State.setBusy_regs (s : State) (b : Option Routine) : (s.setBusy b).regs = s.regs := rfl
@[simp] theorem State.setBusy_reg (s : State) (b : Option Routine) (r : Reg) : (s.setBusy b).reg r = s.reg r := rfl
@[simp] theorem State.setBusy_pc (s : State) (b : Option Routine) : (s.setBusy b).pc = s.pc := rfl
@[simp] theorem State.setBusy_cond (s : State) (b : Option Routine) : (s.setBusy b).cond = s.cond := rfl
@[simp] theorem State.setBusy_running (s : State) (b : Option Routine) : (s.setBusy b).running = s.running := rfl
@[simp] theorem State.setBusy_mem (s : State) (b : Option Routine) : (s.setBusy b).mem = s.mem := rfl
@[simp] theorem State.setBusy_output (s : State) (b : Option Routine) : (s.setBusy b).output = s.output := rfl
@[simp] theorem State.setBusy_busy (s : State) (b : Option Routine) : (s.setBusy b).busy = b := rfl
@[simp] theorem State.setBusy_abortRequested (s : State) (b : Option Routine) :
    (s.setBusy b).abortRequested = s.abortRequested := rfl
@[simp] theorem State.setBusy_hostScript (s : State) (b : Option Routine) : (s.setBusy b).hostScript = s.hostScript := rfl
@[simp] theorem State.setBusy_hostCalls (s : State) (b : Option Routine) : (s.setBusy b).hostCalls = s.hostCalls := rfl

/-! ## setcc -/

@[simp] theorem setcc_regs (r : Reg) (s : State) : (setcc r s).regs = s.regs := rfl
@[simp] theorem setcc_reg (r q : Reg) (s : State) : (setcc r s).reg q = s.reg q := rfl
@[simp] theorem setcc_pc (r : Reg) (s : State) : (setcc r s).pc = s.pc := rfl
@[simp] theorem setcc_cond (r : Reg) (s : State) : (setcc r s).cond = condOf (s.reg r) := rfl
@[simp] theorem setcc_running (r : Reg) (s : State) : (setcc r s).running = s.running := rfl
@[simp] theorem setcc_mem (r : Reg) (s : State) : (setcc r s).mem = s.mem := rfl
@[simp] theorem setcc_output (r : Reg) (s : State) : (setcc r s).output = s.output := rfl
@[simp] theorem setcc_busy (r : Reg) (s : State) : (setcc r s).busy = s.busy := rfl
@[simp] theorem setcc_abortRequested (r : Reg) (s : State) : (setcc r s).abortRequested = s.abortRequested := rfl
@[simp] theorem setcc_hostScript (r : Reg) (s : State) : (setcc r s).hostScript = s.hostScript := rfl
@[simp] theorem setcc_hostCalls (r : Reg) (s : State) : (setcc r s).hostCalls = s.hostCalls := rfl

/-! ## defineReg: a value-defining instruction's end -/

@[simp] theorem defineReg_reg_same (dr : Reg) (v : Word) (s : State) : (defineReg dr v s).reg dr = v := by
  simp [defineReg]

theorem defineReg_reg_other (dr q : Reg) (v : Word) (s : State) (h : q ≠ dr) : (defineReg dr v s).reg q = s.reg q := by
  simp [defineReg, State.setReg_reg_other s dr q v h]

@[simp] theorem defineReg_pc (dr : Reg) (v : Word) (s : State) : (defineReg dr v s).pc = s.pc := rfl
@[simp] theorem defineReg_cond (dr : Reg) (v : Word) (s : State) : (defineReg dr v s).cond = condOf v := by
  simp [defineReg]
@[simp] theorem defineReg_running (dr : Reg) (v : Word) (s : State) : (defineReg dr v s).running = s.running := rfl
@[simp] theorem defineReg_mem (dr : Reg) (v : Word) (s : State) : (defineReg dr v s).mem = s.mem := rfl
@[simp] theorem defineReg_output (dr : Reg) (v : Word) (s : State) : (defineReg dr v s).output = s.output := rfl
@[simp] theorem defineReg_busy (dr : Reg) (v : Word) (s : State) : (defineReg dr v s).busy = s.busy := rfl
@[simp] theorem defineReg_abortRequested (dr : Reg) (v : Word) (s : State) :
    (defineReg dr v s).abortRequested = s.abortRequested := rfl
@[simp] theorem defineReg_hostScript (dr : Reg) (v : Word) (s : State) :
    (defineReg dr v s).hostScript = s.hostScript := rfl
@[simp] theorem defineReg_hostCalls (dr : Reg) (v : Word) (s : State) :
    (defineReg dr v s).hostCalls = s.hostCalls := rfl

end Sys2Proof.Machine
end

