-- ==== Sys2Proof/Laws/Ops.lean ====
section
/-! SUPPORT. What each shared operation can do, said once: asking the host, the read of memory with its side effect, the
fetch, the wait for a character, and the walk over a string. Later proofs cite these and do not unfold the operations. -/

namespace Sys2Proof.Machine

/-! ## The host -/

theorem askHost_script (s : State) (answer : HostAnswer) (rest : List HostAnswer)
    (h : s.hostScript = answer :: rest) : askHost s = (answer, { s with hostScript := rest }) := by
  unfold askHost
  rw [h]

theorem askHost_free (s : State) (h : s.hostScript = []) :
    askHost s = (Config.freeAnswer s.hostCalls, { s with hostCalls := s.hostCalls + 1 }) := by
  unfold askHost
  rw [h]

/-- Asking the host touches the host's side alone. -/
theorem askHost_cases (s : State) :
    ∃ answer script calls, askHost s = (answer, { s with hostScript := script, hostCalls := calls }) := by
  unfold askHost
  split
  · next answer rest h => exact ⟨answer, rest, s.hostCalls, rfl⟩
  · next h => exact ⟨_, s.hostScript, s.hostCalls + 1, rfl⟩

/-- The state after asking the host is the state before, with the host's side as the request left it. -/
theorem askHost_state (s : State) :
    (askHost s).2 = { s with hostScript := (askHost s).2.hostScript, hostCalls := (askHost s).2.hostCalls } := by
  obtain ⟨answer, script, calls, h⟩ := askHost_cases s
  rw [h]

@[simp] theorem askHost_regs (s : State) : (askHost s).2.regs = s.regs := by rw [askHost_state]
@[simp] theorem askHost_reg (s : State) (r : Reg) : (askHost s).2.reg r = s.reg r := by simp [State.reg]
@[simp] theorem askHost_pc (s : State) : (askHost s).2.pc = s.pc := by rw [askHost_state]
@[simp] theorem askHost_cond (s : State) : (askHost s).2.cond = s.cond := by rw [askHost_state]
@[simp] theorem askHost_running (s : State) : (askHost s).2.running = s.running := by rw [askHost_state]
@[simp] theorem askHost_mem (s : State) : (askHost s).2.mem = s.mem := by rw [askHost_state]
@[simp] theorem askHost_output (s : State) : (askHost s).2.output = s.output := by rw [askHost_state]
@[simp] theorem askHost_busy (s : State) : (askHost s).2.busy = s.busy := by rw [askHost_state]
@[simp] theorem askHost_abortRequested (s : State) : (askHost s).2.abortRequested = s.abortRequested := by
  rw [askHost_state]

/-- The host does not see what has been written: its answer is the same, and so is its side after the request. -/
theorem askHost_emit (s : State) (bytes : List Byte) : askHost (s.emit bytes) = ((askHost s).1, (askHost s).2.emit bytes) := by
  unfold askHost State.emit
  cases s.hostScript <;> rfl

/-! ## The keyboard poll -/

/-- The poll either clears the status word, or sets its top bit and puts a character in the data word; beside the host's side
it touches nothing else. -/
theorem pollKeyboard_cases (s : State) :
    ∃ script calls,
      pollKeyboard s = memWrite Config.kbsrAddr 0x0000 { s with hostScript := script, hostCalls := calls } ∨
      ∃ c : Byte, pollKeyboard s =
        memWrite Config.kbdrAddr (c.setWidth 16)
          (memWrite Config.kbsrAddr (s.mem.read Config.kbsrAddr ||| 0x8000)
            { s with hostScript := script, hostCalls := calls }) := by
  obtain ⟨answer, script, calls, h⟩ := askHost_cases s
  refine ⟨script, calls, ?_⟩
  unfold pollKeyboard
  rw [h]
  cases answer with
  | none => exact .inl rfl
  | some c => exact .inr ⟨c, rfl⟩

theorem pollKeyboard_no_key (s : State) (h : (askHost s).1 = none) :
    pollKeyboard s = memWrite Config.kbsrAddr 0x0000 (askHost s).2 := by
  unfold pollKeyboard
  split
  · next c t e => simp [e] at h
  · next t e => rw [e]

theorem pollKeyboard_key (s : State) (c : Byte) (h : (askHost s).1 = some c) :
    pollKeyboard s =
      memWrite Config.kbdrAddr (c.setWidth 16)
        (memWrite Config.kbsrAddr (s.mem.read Config.kbsrAddr ||| 0x8000) (askHost s).2) := by
  unfold pollKeyboard
  split
  · next d t e =>
    have ht : t.mem = s.mem := by rw [← askHost_mem s, e]
    rw [e] at h ⊢
    cases h
    rw [ht]
    rfl
  · next t e => simp [e] at h

/-! ## Reading memory -/

/-- A read away from the keyboard status address is a plain lookup (20_memory.md R52). -/
theorem memRead_plain (a : Word) (s : State) (h : a ≠ Config.kbsrAddr) : memRead a s = (s.mem.read a, s) := by
  simp [memRead, h]

theorem memRead_status (s : State) :
    memRead Config.kbsrAddr s = ((pollKeyboard s).mem.read Config.kbsrAddr, pollKeyboard s) := by
  simp [memRead]

theorem memRead_value (a : Word) (s : State) : (memRead a s).1 = (memRead a s).2.mem.read a := rfl

/-- Everything a `MemRead` can do to the state: nothing, or a poll of the keyboard. -/
theorem memRead_state (a : Word) (s : State) :
    (memRead a s).2 = s ∨ (a = Config.kbsrAddr ∧ (memRead a s).2 = pollKeyboard s) := by
  by_cases h : a = Config.kbsrAddr
  · exact .inr ⟨h, by simp [memRead, h]⟩
  · exact .inl (by simp [memRead, h])

theorem pollKeyboard_keeps (s : State) :
    (pollKeyboard s).regs = s.regs ∧ (pollKeyboard s).pc = s.pc ∧ (pollKeyboard s).cond = s.cond ∧
      (pollKeyboard s).running = s.running ∧ (pollKeyboard s).output = s.output ∧
      (pollKeyboard s).busy = s.busy ∧ (pollKeyboard s).abortRequested = s.abortRequested := by
  obtain ⟨script, calls, h | ⟨c, h⟩⟩ := pollKeyboard_cases s <;> simp [h]

theorem memRead_keeps (a : Word) (s : State) :
    (memRead a s).2.regs = s.regs ∧ (memRead a s).2.pc = s.pc ∧ (memRead a s).2.cond = s.cond ∧
      (memRead a s).2.running = s.running ∧ (memRead a s).2.output = s.output ∧
      (memRead a s).2.busy = s.busy ∧ (memRead a s).2.abortRequested = s.abortRequested := by
  rcases memRead_state a s with h | ⟨_, h⟩
  · simp [h]
  · rw [h]; exact pollKeyboard_keeps s

@[simp] theorem memRead_regs (a : Word) (s : State) : (memRead a s).2.regs = s.regs := (memRead_keeps a s).1
@[simp] theorem memRead_reg (a : Word) (s : State) (r : Reg) : (memRead a s).2.reg r = s.reg r := by
  simp [State.reg]
@[simp] theorem memRead_pc (a : Word) (s : State) : (memRead a s).2.pc = s.pc := (memRead_keeps a s).2.1
@[simp] theorem memRead_cond (a : Word) (s : State) : (memRead a s).2.cond = s.cond := (memRead_keeps a s).2.2.1
@[simp] theorem memRead_running (a : Word) (s : State) : (memRead a s).2.running = s.running :=
  (memRead_keeps a s).2.2.2.1
@[simp] theorem memRead_output (a : Word) (s : State) : (memRead a s).2.output = s.output :=
  (memRead_keeps a s).2.2.2.2.1
@[simp] theorem memRead_busy (a : Word) (s : State) : (memRead a s).2.busy = s.busy :=
  (memRead_keeps a s).2.2.2.2.2.1
@[simp] theorem memRead_abortRequested (a : Word) (s : State) :
    (memRead a s).2.abortRequested = s.abortRequested := (memRead_keeps a s).2.2.2.2.2.2

theorem pollKeyboard_keeps_wf (s : State) (h : s.mem.wf = true) : (pollKeyboard s).mem.wf = true := by
  obtain ⟨script, calls, e | ⟨c, e⟩⟩ := pollKeyboard_cases s
  · rw [e]; exact memWrite_keeps_wf _ _ _ h
  · rw [e]; exact memWrite_keeps_wf _ _ _ (memWrite_keeps_wf _ _ _ h)

/-- A `MemRead` keeps the canonical form of memory. -/
theorem memRead_keeps_wf (a : Word) (s : State) (h : s.mem.wf = true) : (memRead a s).2.mem.wf = true := by
  rcases memRead_state a s with e | ⟨_, e⟩
  · rw [e]; exact h
  · rw [e]; exact pollKeyboard_keeps_wf s h

/-- A `MemRead` changes no stored word but the two keyboard words, and those only at the status address. -/
theorem memRead_read_other (a b : Word) (s : State) (h : a = Config.kbsrAddr → b ≠ Config.kbsrAddr ∧ b ≠ Config.kbdrAddr) :
    (memRead a s).2.mem.read b = s.mem.read b := by
  rcases memRead_state a s with e | ⟨ha, e⟩
  · rw [e]
  · obtain ⟨hk, hd⟩ := h ha
    rw [e]
    obtain ⟨script, calls, p | ⟨c, p⟩⟩ := pollKeyboard_cases s <;>
      simp [p, Memory.read_write_other _ _ _ _ hk, Memory.read_write_other _ _ _ _ hd]

/-! ## Fetching -/

/-- The fetch away from the keyboard status address: the stored word, and `pc` incremented. -/
theorem fetch_plain (s : State) (h : s.pc ≠ Config.kbsrAddr) :
    fetch s = (s.mem.read s.pc, { s with pc := s.pc + 1 }) := by
  simp [fetch, memRead_plain s.pc s h, State.setPc]

theorem fetch_pc (s : State) : (fetch s).2.pc = s.pc + 1 := by
  simp [fetch]

theorem fetch_keeps_wf (s : State) (h : s.mem.wf = true) : (fetch s).2.mem.wf = true := by
  simpa [fetch] using memRead_keeps_wf s.pc s h

/-! ## Waiting for a character -/

/-- GETC's look at the host: it ends with the character in R0, or it goes on waiting. -/
theorem takeGetc_cases (s : State) :
    ∃ script calls,
      takeGetc s = { s with busy := some .getc, hostScript := script, hostCalls := calls } ∨
      ∃ c : Byte, takeGetc s =
        ({ s with hostScript := script, hostCalls := calls }.setReg .r0 (zext16 c)).setBusy none := by
  obtain ⟨answer, script, calls, h⟩ := askHost_cases s
  refine ⟨script, calls, ?_⟩
  unfold takeGetc
  rw [h]
  cases answer with
  | none => exact .inl rfl
  | some c => exact .inr ⟨c, rfl⟩

/-- IN's look at the host: it ends with the character echoed and in R0, or it goes on waiting. -/
theorem takeInEcho_cases (s : State) :
    ∃ script calls,
      takeInEcho s = { s with busy := some .inEcho, hostScript := script, hostCalls := calls } ∨
      ∃ c : Byte, takeInEcho s =
        (({ s with hostScript := script, hostCalls := calls }.emit [c]).setReg .r0 (zext16 c)).setBusy none := by
  obtain ⟨answer, script, calls, h⟩ := askHost_cases s
  refine ⟨script, calls, ?_⟩
  unfold takeInEcho
  rw [h]
  cases answer with
  | none => exact .inl rfl
  | some c => exact .inr ⟨c, rfl⟩

theorem takeGetc_char (s : State) (c : Byte) (h : (askHost s).1 = some c) :
    takeGetc s = ((askHost s).2.setReg .r0 (zext16 c)).setBusy none := by
  unfold takeGetc
  split
  · next d t e => rw [e] at h ⊢; cases h; rfl
  · next t e => simp [e] at h

theorem takeGetc_wait (s : State) (h : (askHost s).1 = none) : takeGetc s = (askHost s).2.setBusy (some .getc) := by
  unfold takeGetc
  split
  · next c t e => simp [e] at h
  · next t e => rw [e]

theorem takeInEcho_char (s : State) (c : Byte) (h : (askHost s).1 = some c) :
    takeInEcho s = (((askHost s).2.emit [c]).setReg .r0 (zext16 c)).setBusy none := by
  unfold takeInEcho
  split
  · next d t e => rw [e] at h ⊢; cases h; rfl
  · next t e => simp [e] at h

theorem takeInEcho_wait (s : State) (h : (askHost s).1 = none) :
    takeInEcho s = (askHost s).2.setBusy (some .inEcho) := by
  unfold takeInEcho
  split
  · next c t e => simp [e] at h
  · next t e => rw [e]

/-! ## Walking a string -/

/-- The walk at a zero word: it ends there, and only the read's own side effect happens. -/
theorem walk_zero_word (bytesOf : Word → List Byte) (fuel : Nat) (a : Word) (s : State)
    (h : (memRead a s).1 = 0x0000) : walk bytesOf (fuel + 1) a s = (none, (memRead a s).2) := by
  simp only [walk]
  rw [if_pos h]

/-- The walk at a word that is not zero: its bytes are written and the pointer moves on. -/
theorem walk_word (bytesOf : Word → List Byte) (fuel : Nat) (a : Word) (s : State)
    (h : (memRead a s).1 ≠ 0x0000) :
    walk bytesOf (fuel + 1) a s = walk bytesOf fuel (a + 1) ((memRead a s).2.emit (bytesOf (memRead a s).1)) := by
  simp only [walk]
  rw [if_neg h]

/-- A property that reads and writes of bytes keep is kept by the whole walk. -/
theorem walk_keeps (P : State → Prop) (bytesOf : Word → List Byte)
    (hread : ∀ a s, P s → P (memRead a s).2) (hemit : ∀ bs s, P s → P (s.emit bs)) (fuel : Nat) (a : Word) (s : State)
    (h : P s) : P (walk bytesOf fuel a s).2 := by
  induction fuel generalizing a s with
  | zero => exact h
  | succ fuel ih =>
    by_cases hz : (memRead a s).1 = 0x0000
    · rw [walk_zero_word bytesOf fuel a s hz]; exact hread a s h
    · rw [walk_word bytesOf fuel a s hz]; exact ih _ _ (hemit _ _ (hread a s h))

/-- The walk touches neither registers nor `pc`, `cond`, `running`, `busy` or the abort. -/
theorem walk_keeps_core (bytesOf : Word → List Byte) (fuel : Nat) (a : Word) (s : State) :
    (walk bytesOf fuel a s).2.regs = s.regs ∧ (walk bytesOf fuel a s).2.pc = s.pc ∧
      (walk bytesOf fuel a s).2.cond = s.cond ∧ (walk bytesOf fuel a s).2.running = s.running ∧
      (walk bytesOf fuel a s).2.busy = s.busy ∧ (walk bytesOf fuel a s).2.abortRequested = s.abortRequested := by
  refine walk_keeps (fun t => t.regs = s.regs ∧ t.pc = s.pc ∧ t.cond = s.cond ∧ t.running = s.running ∧
    t.busy = s.busy ∧ t.abortRequested = s.abortRequested) bytesOf ?_ ?_ fuel a s ?_
  · intro b t ht; simpa using ht
  · intro bs t ht; simpa using ht
  · simp

/-- A walk over words that are not zero and not the keyboard status word writes them and goes on after them. -/
theorem walk_plain_words (bytesOf : Word → List Byte) (fuel : Nat) (a : Word) (ws : List Word) (s : State)
    (hw : WordsAt s.mem a ws) (hk : Config.kbsrAddr ∉ addressesFrom a ws.length) :
    walk bytesOf (ws.length + fuel) a s =
      walk bytesOf fuel (a + BitVec.ofNat 16 ws.length) (s.emit (ws.flatMap bytesOf)) := by
  induction ws generalizing a s with
  | nil => simp
  | cons w ws ih =>
    obtain ⟨hr, hz, hw⟩ := hw
    simp only [List.length_cons, addressesFrom, List.mem_cons, not_or] at hk
    have hread := memRead_plain a s (Ne.symm hk.1)
    have hnext : a + BitVec.ofNat 16 (ws.length + 1) = a + 1 + BitVec.ofNat 16 ws.length := by
      rw [BitVec.add_assoc]
      congr 1
      apply BitVec.eq_of_toNat_eq
      simp [Nat.add_comm]
    rw [List.length_cons, show ws.length + 1 + fuel = ws.length + fuel + 1 by omega,
      walk_word bytesOf _ a s (by rw [hread, hr]; exact hz), hread, hr, hnext]
    have hgo := ih (a + 1) (s.emit (bytesOf w)) hw hk.2
    simpa [State.emit_emit] using hgo

theorem walk_keeps_wf (bytesOf : Word → List Byte) (fuel : Nat) (a : Word) (s : State) (h : s.mem.wf = true) :
    (walk bytesOf fuel a s).2.mem.wf = true :=
  walk_keeps (fun t => t.mem.wf = true) bytesOf (fun b t ht => memRead_keeps_wf b t ht) (fun _ _ ht => ht) fuel a s h

end Sys2Proof.Machine
end

