-- ==== Sys2Proof/Laws/PerInstr.lean ====
section
/-! SUPPORT. Per instruction, a law of its encoding: the word the encoder writes has the fixed bits that the instruction's row
of spec/opcode_table.json asks for (its columns mask and match). The family's name in LAWS.json is FixedBits. -/

namespace Sys2Proof.Laws.FixedBits

/-- The encoding meets its own row of the opcode table. -/
def Statement (i : Instr) : Prop :=
  encode i &&& i.tableRow.1 = i.tableRow.2

theorem addReg (dr : Reg) (sr1 : Reg) (sr2 : Reg) : Statement (.addReg dr sr1 sr2) := by
  apply BitVec.eq_of_getLsbD_eq
  intro i hi
  simp only [encode, opcodeField, Config.opcodeMap, Instr.tableRow, BitVec.getLsbD_and, BitVec.getLsbD_or, fieldAt_getLsbD]
  interval_cases i <;> simp

theorem addImm (dr : Reg) (sr1 : Reg) (imm5 : BitVec 5) : Statement (.addImm dr sr1 imm5) := by
  apply BitVec.eq_of_getLsbD_eq
  intro i hi
  simp only [encode, opcodeField, Config.opcodeMap, Instr.tableRow, BitVec.getLsbD_and, BitVec.getLsbD_or, fieldAt_getLsbD]
  interval_cases i <;> simp

theorem andReg (dr : Reg) (sr1 : Reg) (sr2 : Reg) : Statement (.andReg dr sr1 sr2) := by
  apply BitVec.eq_of_getLsbD_eq
  intro i hi
  simp only [encode, opcodeField, Config.opcodeMap, Instr.tableRow, BitVec.getLsbD_and, BitVec.getLsbD_or, fieldAt_getLsbD]
  interval_cases i <;> simp

theorem andImm (dr : Reg) (sr1 : Reg) (imm5 : BitVec 5) : Statement (.andImm dr sr1 imm5) := by
  apply BitVec.eq_of_getLsbD_eq
  intro i hi
  simp only [encode, opcodeField, Config.opcodeMap, Instr.tableRow, BitVec.getLsbD_and, BitVec.getLsbD_or, fieldAt_getLsbD]
  interval_cases i <;> simp

theorem not (dr : Reg) (sr : Reg) : Statement (.not dr sr) := by
  apply BitVec.eq_of_getLsbD_eq
  intro i hi
  simp only [encode, opcodeField, Config.opcodeMap, Instr.tableRow, BitVec.getLsbD_and, BitVec.getLsbD_or, fieldAt_getLsbD]
  interval_cases i <;> simp

theorem br (n : Bool) (z : Bool) (p : Bool) (offset9 : BitVec 9) : Statement (.br n z p offset9) := by
  apply BitVec.eq_of_getLsbD_eq
  intro i hi
  simp only [encode, opcodeField, Config.opcodeMap, Instr.tableRow, BitVec.getLsbD_and, BitVec.getLsbD_or, fieldAt_getLsbD]
  interval_cases i <;> simp

theorem jmp (baseR : Reg) : Statement (.jmp baseR) := by
  apply BitVec.eq_of_getLsbD_eq
  intro i hi
  simp only [encode, opcodeField, Config.opcodeMap, Instr.tableRow, BitVec.getLsbD_and, BitVec.getLsbD_or, fieldAt_getLsbD]
  interval_cases i <;> simp

theorem jsr (offset11 : BitVec 11) : Statement (.jsr offset11) := by
  apply BitVec.eq_of_getLsbD_eq
  intro i hi
  simp only [encode, opcodeField, Config.opcodeMap, Instr.tableRow, BitVec.getLsbD_and, BitVec.getLsbD_or, fieldAt_getLsbD]
  interval_cases i <;> simp

theorem jsrr (baseR : Reg) : Statement (.jsrr baseR) := by
  apply BitVec.eq_of_getLsbD_eq
  intro i hi
  simp only [encode, opcodeField, Config.opcodeMap, Instr.tableRow, BitVec.getLsbD_and, BitVec.getLsbD_or, fieldAt_getLsbD]
  interval_cases i <;> simp

theorem ld (dr : Reg) (offset9 : BitVec 9) : Statement (.ld dr offset9) := by
  apply BitVec.eq_of_getLsbD_eq
  intro i hi
  simp only [encode, opcodeField, Config.opcodeMap, Instr.tableRow, BitVec.getLsbD_and, BitVec.getLsbD_or, fieldAt_getLsbD]
  interval_cases i <;> simp

theorem ldi (dr : Reg) (offset9 : BitVec 9) : Statement (.ldi dr offset9) := by
  apply BitVec.eq_of_getLsbD_eq
  intro i hi
  simp only [encode, opcodeField, Config.opcodeMap, Instr.tableRow, BitVec.getLsbD_and, BitVec.getLsbD_or, fieldAt_getLsbD]
  interval_cases i <;> simp

theorem ldr (dr : Reg) (baseR : Reg) (offset6 : BitVec 6) : Statement (.ldr dr baseR offset6) := by
  apply BitVec.eq_of_getLsbD_eq
  intro i hi
  simp only [encode, opcodeField, Config.opcodeMap, Instr.tableRow, BitVec.getLsbD_and, BitVec.getLsbD_or, fieldAt_getLsbD]
  interval_cases i <;> simp

theorem lea (dr : Reg) (offset9 : BitVec 9) : Statement (.lea dr offset9) := by
  apply BitVec.eq_of_getLsbD_eq
  intro i hi
  simp only [encode, opcodeField, Config.opcodeMap, Instr.tableRow, BitVec.getLsbD_and, BitVec.getLsbD_or, fieldAt_getLsbD]
  interval_cases i <;> simp

theorem st (sr : Reg) (offset9 : BitVec 9) : Statement (.st sr offset9) := by
  apply BitVec.eq_of_getLsbD_eq
  intro i hi
  simp only [encode, opcodeField, Config.opcodeMap, Instr.tableRow, BitVec.getLsbD_and, BitVec.getLsbD_or, fieldAt_getLsbD]
  interval_cases i <;> simp

theorem sti (sr : Reg) (offset9 : BitVec 9) : Statement (.sti sr offset9) := by
  apply BitVec.eq_of_getLsbD_eq
  intro i hi
  simp only [encode, opcodeField, Config.opcodeMap, Instr.tableRow, BitVec.getLsbD_and, BitVec.getLsbD_or, fieldAt_getLsbD]
  interval_cases i <;> simp

theorem str (sr : Reg) (baseR : Reg) (offset6 : BitVec 6) : Statement (.str sr baseR offset6) := by
  apply BitVec.eq_of_getLsbD_eq
  intro i hi
  simp only [encode, opcodeField, Config.opcodeMap, Instr.tableRow, BitVec.getLsbD_and, BitVec.getLsbD_or, fieldAt_getLsbD]
  interval_cases i <;> simp

theorem trap (trapvect8 : BitVec 8) : Statement (.trap trapvect8) := by
  apply BitVec.eq_of_getLsbD_eq
  intro i hi
  simp only [encode, opcodeField, Config.opcodeMap, Instr.tableRow, BitVec.getLsbD_and, BitVec.getLsbD_or, fieldAt_getLsbD]
  interval_cases i <;> simp

theorem reserved8 : Statement .reserved8 := by
  rfl

theorem reserved13 : Statement .reserved13 := by
  rfl

theorem getc : Statement .getc := by
  rfl

theorem out : Statement .out := by
  rfl

theorem puts : Statement .puts := by
  rfl

theorem inEcho : Statement .inEcho := by
  rfl

theorem putsp : Statement .putsp := by
  rfl

theorem halt : Statement .halt := by
  rfl

theorem ret : Statement .ret := by
  rfl

theorem nop (offset9 : BitVec 9) : Statement (.nop offset9) := by
  apply BitVec.eq_of_getLsbD_eq
  intro i hi
  simp only [encode, opcodeField, Config.opcodeMap, Instr.tableRow, BitVec.getLsbD_and, BitVec.getLsbD_or, fieldAt_getLsbD]
  interval_cases i <;> simp

end Sys2Proof.Laws.FixedBits
end

