-- ==== Sys2Proof/Tests/Slice0.lean ====
section
/-! SUPPORT. The model's own tests. Every expected result of a step is a row of spec/95_test_vectors.md (its id stands in the
test's docstring) or a word written out from the formats of spec/30_encoding.md R81; the witnesses meet the hypotheses of the
statements in Certificates/Slice0/Obligations.lean. -/

namespace Sys2Proof.Tests

open Sys2Proof Sys2Proof.Machine

/-! ## WellFormed refuses a second spelling -/

theorem test_wellFormed_refuses_br_spelled_nop : Instr.wellFormed (.br false false false 5#9) = false := by decide
theorem test_wellFormed_refuses_jmp_spelled_ret : Instr.wellFormed (.jmp .r7) = false := by decide
theorem test_wellFormed_refuses_trap_spelled_getc : Instr.wellFormed (.trap 0x20#8) = false := by decide
theorem test_wellFormed_refuses_trap_spelled_halt : Instr.wellFormed (.trap 0x25#8) = false := by decide
theorem test_wellFormed_takes_the_neighbours :
    Instr.wellFormed (.trap 0x1F#8) = true ∧ Instr.wellFormed (.trap 0x26#8) = true ∧
    Instr.wellFormed (.jmp .r6) = true ∧ Instr.wellFormed (.br false false true 0#9) = true := by decide

/-! ## Decoding: every constructor, by a word written out field by field from 30_encoding.md R81 -/

theorem test_decode_addReg : decode 0b0001_010_000_0_00_001#16 = .addReg .r2 .r0 .r1 := by decide
theorem test_decode_addReg_ignored : decode 0b0001_010_000_0_11_001#16 = .addReg .r2 .r0 .r1 := by decide
theorem test_decode_addImm : decode 0b0001_001_010_1_10000#16 = .addImm .r1 .r2 0b10000#5 := by decide
theorem test_decode_andReg : decode 0b0101_011_001_0_00_010#16 = .andReg .r3 .r1 .r2 := by decide
theorem test_decode_andImm : decode 0b0101_101_110_1_11111#16 = .andImm .r5 .r6 0b11111#5 := by decide
theorem test_decode_not : decode 0b1001_001_000_111111#16 = .not .r1 .r0 := by decide
theorem test_decode_br : decode 0b0000_1_0_1_000000101#16 = .br true false true 5#9 := by decide
theorem test_decode_nop : decode 0b0000_0_0_0_111111111#16 = .nop 0x1FF#9 := by decide
theorem test_decode_jmp : decode 0b1100_000_010_000000#16 = .jmp .r2 := by decide
theorem test_decode_ret : decode 0b1100_000_111_000000#16 = .ret := by decide
theorem test_decode_jsr : decode 0b0100_1_10000000000#16 = .jsr 0x400#11 := by decide
theorem test_decode_jsrr : decode 0b0100_0_00_011_000000#16 = .jsrr .r3 := by decide
theorem test_decode_ld : decode 0b0010_001_000000010#16 = .ld .r1 2#9 := by decide
theorem test_decode_ldi : decode 0b1010_010_000000001#16 = .ldi .r2 1#9 := by decide
theorem test_decode_ldr : decode 0b0110_100_101_111111#16 = .ldr .r4 .r5 0x3F#6 := by decide
theorem test_decode_lea : decode 0b1110_110_100000000#16 = .lea .r6 0x100#9 := by decide
theorem test_decode_st : decode 0b0011_011_000000100#16 = .st .r3 4#9 := by decide
theorem test_decode_sti : decode 0b1011_001_000000000#16 = .sti .r1 0#9 := by decide
theorem test_decode_str : decode 0b0111_010_110_000011#16 = .str .r2 .r6 3#6 := by decide
theorem test_decode_trap : decode 0b1111_0000_00100110#16 = .trap 0x26#8 := by decide
theorem test_decode_reserved8 : decode 0b1000_111111111111#16 = .reserved8 := by decide
theorem test_decode_reserved13 : decode 0b1101_111010101101#16 = .reserved13 := by decide
theorem test_decode_getc : decode 0b1111_0000_00100000#16 = .getc := by decide
theorem test_decode_out : decode 0b1111_0000_00100001#16 = .out := by decide
theorem test_decode_puts : decode 0b1111_0000_00100010#16 = .puts := by decide
theorem test_decode_inEcho : decode 0b1111_0000_00100011#16 = .inEcho := by decide
theorem test_decode_putsp : decode 0b1111_0000_00100100#16 = .putsp := by decide
theorem test_decode_halt : decode 0b1111_0011_00100101#16 = .halt := by decide

theorem test_encode_assembler_words :
    encode (.not .r1 .r0) = 0x923F ∧ encode (.addImm .r0 .r0 5#5) = 0x1025 ∧ encode .ret = 0xC1C0 ∧
    encode .halt = 0xF025 ∧ encode (.jsr 4#11) = 0x4804 ∧ encode (.br false true false 3#9) = 0x0403 := by decide

theorem test_decodeBits_rejects_by_name :
    decodeTableWord 16 0x1025 = some (.addImm .r0 .r0 5#5) ∧ decodeTableWord 32 0x1025 = none ∧
    decodeTableWord 16 0x10000 = none ∧ decodeTableWord 0 0 = none := by decide

/-! ## One step -/

/-- One step of the word `w` from `s`, at the state's own `pc`. -/
def run (w : Nat) (s : State) : Option State :=
  match step (s.withFetchWord 16 w) with
  | .next t => some t
  | .fault _ => none
  | .refused _ => none

/-- The reset state with registers, flag, `pc` and memory as a row of the table sets them. -/
def start (regs : List (Reg × Word)) (cond : Cond) (pc : Word) (cells : List Cell) : State :=
  regs.foldl (fun s rv => s.setReg rv.1 rv.2) { State.reset with cond := cond, pc := pc, mem := { cells := cells } }

/-- The same with the host's answers. -/
def startHost (regs : List (Reg × Word)) (cond : Cond) (pc : Word) (cells : List Cell) (script : List HostAnswer) : State :=
  { start regs cond pc cells with hostScript := script }

/-- What a row of the table names after a step: one register, the flag, `pc`. -/
def seen (r : Reg) (t : State) : Word × Cond × Word := (t.reg r, t.cond, t.pc)

/-- A3 -/
theorem test_addReg_carry_discarded :
    (run 0x1401 (start [(.r0, 0xFFFF), (.r1, 0x0001)] .n 0x3000 [])).map (seen .r2) = some (0x0000, .z, 0x3001) := by decide
/-- A5 -/
theorem test_addReg_all_the_same :
    (run 0x16C3 (start [(.r3, 0x8000)] .p 0x3000 [])).map (seen .r3) = some (0x0000, .z, 0x3001) := by decide
/-- A7 -/
theorem test_addImm_minus_one :
    (run 0x127F (start [] .z 0x3000 [])).map (seen .r1) = some (0xFFFF, .n, 0x3001) := by decide
/-- A9 -/
theorem test_addImm_plus_fifteen :
    (run 0x192F (start [(.r4, 0xFFF1)] .n 0x3000 [])).map (seen .r4) = some (0x0000, .z, 0x3001) := by decide
/-- B1 -/
theorem test_andReg :
    (run 0x5642 (start [(.r1, 0xF0F0), (.r2, 0xFF00)] .z 0x3000 [])).map (seen .r3) = some (0xF000, .n, 0x3001) := by decide
/-- B5 -/
theorem test_andImm_sign_extended :
    (run 0x5BB0 (start [(.r6, 0x12FF)] .z 0x3000 [])).map (seen .r5) = some (0x12F0, .p, 0x3001) := by decide
/-- NT2 -/
theorem test_not_ignored_bits :
    (run 0x9200 (start [(.r0, 0x00FF)] .z 0x3000 [])).map (seen .r1) = some (0xFF00, .n, 0x3001) := by decide
/-- NT4 -/
theorem test_not_to_positive :
    (run 0x923F (start [(.r0, 0x8000)] .n 0x3000 [])).map (seen .r1) = some (0x7FFF, .p, 0x3001) := by decide
/-- CT12 -/
theorem test_br_wraps_backwards :
    (run 0x0FFE (start [] .z 0x0000 [])).map (seen .r0) = some (0x0000, .z, 0xFFFF) := by decide
/-- CT5 -/
theorem test_br_not_taken :
    (run 0x0A05 (start [] .z 0x3000 [])).map (seen .r0) = some (0x0000, .z, 0x3001) := by decide
/-- CT8 -/
theorem test_nop_never_taken :
    (run 0x01FF (start [] .n 0x3000 [])).map (seen .r0) = some (0x0000, .n, 0x3001) := by decide
/-- CT15 -/
theorem test_jmp_ignored_bits :
    (run 0xCEBF (start [(.r2, 0x4000)] .n 0x3000 [])).map (seen .r7) = some (0x0000, .n, 0x4000) := by decide
/-- CT16 -/
theorem test_ret :
    (run 0xC1C0 (start [(.r7, 0x3005)] .z 0x3000 [])).map (seen .r7) = some (0x3005, .z, 0x3005) := by decide
/-- CT18 -/
theorem test_jsr_backwards :
    (run 0x4C00 (start [] .z 0x3009 [])).map (seen .r7) = some (0x300A, .z, 0x2C0A) := by decide
/-- CT19 -/
theorem test_jsr_farthest :
    (run 0x4BFF (start [] .z 0x300A [])).map (seen .r7) = some (0x300B, .z, 0x340A) := by decide
/-- CT23 -/
theorem test_jsrr_ignored_bits :
    (run 0x46FF (start [(.r3, 0x5000)] .z 0x300B [])).map (seen .r7) = some (0x300C, .z, 0x5000) := by decide
/-- CT22 -/
theorem test_jsrr_r7_does_not_jump :
    (run 0x41C0 (start [(.r7, 0x5000)] .z 0x300C [])).map (seen .r7) = some (0x300D, .z, 0x300D) := by decide
/-- L2 -/
theorem test_ld_loads_itself :
    (run 0x23FF (start [] .z 0x300F [])).map (seen .r1) = some (0x23FF, .p, 0x3010) := by decide
/-- L3 -/
theorem test_ld_wraps :
    (run 0x2200 (start [] .n 0xFFFF [(0x0000, 0x0001)])).map (seen .r1) = some (0x0001, .p, 0x0000) := by decide
/-- L5, the source's scenario 3 -/
theorem test_ldi :
    (run 0xA401 (start [] .z 0x3010 [(0x3012, 0x4000), (0x4000, 0x0042)])).map (seen .r2) = some (0x0042, .p, 0x3011) := by
  decide
/-- K3 -/
theorem test_ldi_second_status_read :
    (run 0xA000 (startHost [] .z 0x3000 [(0x3001, 0xFE00), (0xFE00, 0x8000), (0xFE02, 0x0071)] [some 0x72, some 0x73])).map
      (fun t => (seen .r0 t, t.mem.read 0xFE02, t.hostScript)) =
      some ((0x8000, .n, 0x3001), 0x0072, [some 0x73]) := by decide
/-- L9 -/
theorem test_ldr_onto_its_base :
    (run 0x6000 (start [(.r0, 0x4000)] .z 0x3000 [(0x4000, 0x1234)])).map (seen .r0) = some (0x1234, .p, 0x3001) := by decide
/-- K7 -/
theorem test_ldr_status_read :
    (run 0x6280 (startHost [(.r2, 0xFE00)] .z 0x3000 [] [some 0x41])).map
      (fun t => (seen .r1 t, t.mem.read 0xFE02)) = some ((0x8000, .n, 0x3001), 0x0041) := by decide
/-- L12 -/
theorem test_lea_backwards :
    (run 0xED00 (start [] .z 0x3014 [])).map (seen .r6) = some (0x2F15, .p, 0x3015) := by decide
/-- L13 -/
theorem test_lea_sets_negative :
    (run 0xE000 (start [] .z 0x7FFF [])).map (seen .r0) = some (0x8000, .n, 0x8000) := by decide
/-- T1 -/
theorem test_st :
    (run 0x3604 (start [(.r3, 0x1234)] .n 0x3015 [])).map (fun t => (t.mem.read 0x301A, t.cond, t.pc)) =
      some (0x1234, .n, 0x3016) := by decide
/-- T2 -/
theorem test_st_overwrites_itself :
    (run 0x31FF (start [(.r0, 0xF025)] .z 0x3000 [])).map (fun t => (t.mem.read 0x3000, t.cond, t.pc)) =
      some (0xF025, .z, 0x3001) := by decide
/-- T3 -/
theorem test_sti :
    (run 0xB200 (start [(.r1, 0x00FF)] .z 0x3016 [(0x3017, 0x4000)])).map
      (fun t => (t.mem.read 0x4000, t.mem.read 0x3017)) = some (0x00FF, 0x4000) := by decide
/-- T4 -/
theorem test_sti_onto_its_pointer :
    (run 0xB200 (start [(.r1, 0x00FF)] .z 0x3016 [(0x3017, 0x3017)])).map (fun t => t.mem.read 0x3017) =
      some 0x00FF := by decide
/-- T6 -/
theorem test_str_backwards :
    (run 0x75A0 (start [(.r6, 0x4000), (.r2, 0xBEEF)] .z 0x3000 [])).map (fun t => t.mem.read 0x3FE0) =
      some 0xBEEF := by decide
/-- K8 -/
theorem test_str_to_the_status_word :
    (run 0x7280 (startHost [(.r2, 0xFE00), (.r1, 0x8000)] .z 0x3000 [] [some 0x41])).map
      (fun t => (t.mem.read 0xFE00, t.hostScript)) = some (0x8000, [some 0x41]) := by decide
/-- G1 -/
theorem test_getc :
    (run 0xF020 (startHost [(.r0, 0xFFFF), (.r7, 0x1234)] .n 0x3000 [] [some 0x61])).map
      (fun t => (seen .r0 t, t.reg .r7, t.output)) = some ((0x0061, .n, 0x3001), 0x1234, []) := by decide
/-- The wait of 60_exceptions.md R195: no character yet, nothing changes, and R0 keeps its word. -/
theorem test_getc_waits :
    (run 0xF020 (startHost [(.r0, 0xFFFF)] .n 0x3000 [] [none, some 0x61])).map
      (fun t => (t.reg .r0, t.busy)) = some (0xFFFF, some .getc) := by decide
/-- O1 -/
theorem test_out :
    (run 0xF021 (start [(.r0, 0x1241)] .z 0x3000 [])).map (fun t => (t.output, t.reg .r0)) =
      some ([0x41], 0x1241) := by decide
/-- PS4 -/
theorem test_puts_wraps :
    (run 0xF022 (start [(.r0, 0xFFFF)] .z 0x3000 [(0x0000, 0x0059), (0xFFFF, 0x0058)])).map
      (fun t => (t.output, t.reg .r0)) = some ([0x58, 0x59], 0xFFFF) := by decide
/-- K12 -/
theorem test_puts_over_the_status_word :
    (run 0xF022 (startHost [(.r0, 0xFDFF)] .z 0x3000 [(0xFDFF, 0x0041), (0xFE00, 0x0042)] [none])).map
      (fun t => (t.output, t.mem.read 0xFE00)) = some ([0x41], 0x0000) := by decide
/-- I1: the prompt's bytes are open, so the echo is what is tested here. -/
theorem test_inEcho :
    (run 0xF023 (startHost [(.r0, 0xFFFF)] .n 0x3000 [] [some 0x7A])).map (seen .r0) = some (0x007A, .n, 0x3001) := by decide
/-- I1, the output -/
theorem test_inEcho_output :
    (run 0xF023 (startHost [(.r0, 0xFFFF)] .n 0x3000 [] [some 0x7A])).map (fun t => t.output) =
      some ([] ++ Config.inPrompt ++ [0x7A]) := by rfl
/-- Q2 -/
theorem test_putsp_odd_length :
    (run 0xF024 (start [(.r0, 0x4000)] .z 0x3000 [(0x4000, 0x4241), (0x4001, 0x0043)])).map (fun t => t.output) =
      some [0x41, 0x42, 0x43] := by decide
/-- Q3 -/
theorem test_putsp_low_byte_zero :
    (run 0xF024 (start [(.r0, 0x4000)] .z 0x3000 [(0x4000, 0x4100), (0x4001, 0x0042)])).map (fun t => t.output) =
      some [0x00, 0x41, 0x42] := by decide
/-- H2 -/
theorem test_halt :
    (run 0xF325 (start [(.r0, 0x0007)] .p 0x3000 [])).map (fun t => (t.running, seen .r0 t)) =
      some (false, (0x0007, .p, 0x3001)) := by decide
/-- H1, the output -/
theorem test_halt_output :
    (run 0xF025 (start [] .p 0x3000 [])).map (fun t => t.output) = some ([] ++ Config.haltNotice) := by rfl
/-- X4 -/
theorem test_trap_unknown_vector :
    (run 0xF0FF (start [(.r0, 0x0007), (.r7, 0x0009)] .p 0x3000 [])).map (fun t => (seen .r0 t, t.reg .r7, t.output)) =
      some ((0x0007, .p, 0x3001), 0x0009, []) := by decide
/-- X6 -/
theorem test_reserved8 :
    (run 0x8FFF (start [(.r0, 0x0007)] .n 0x3000 [])).map (seen .r0) = some (0x0007, .n, 0x3001) := by decide
/-- X8 -/
theorem test_reserved13 :
    (run 0xDEAD (start [(.r0, 0x0007)] .n 0x3000 [])).map (seen .r0) = some (0x0007, .n, 0x3001) := by decide

/-- One step of what memory holds. -/
def stepped (s : State) : Option State :=
  match step s with
  | .next t => some t
  | .fault _ => none
  | .refused _ => none

/-- K10 -/
theorem test_fetch_from_the_status_word_with_a_key :
    (stepped (startHost [] .z 0xFE00 [] [some 0x41])).map (fun t => (t.mem.read 0xFE00, t.mem.read 0xFE02, t.pc)) =
      some (0x8000, 0x0041, 0xFE01) := by decide
/-- K11 -/
theorem test_fetch_from_the_status_word_without_a_key :
    (stepped (startHost [] .z 0xFE00 [(0xFE00, 0x1025)] [none])).map (fun t => (t.mem.read 0xFE00, seen .r0 t)) =
      some (0x0000, (0x0000, .z, 0xFE01)) := by decide
/-- M2: the load never wraps. -/
theorem test_load_stops_at_the_end_of_memory :
    loadImage [0xFF, 0xFE, 0x11, 0x11, 0x22, 0x22, 0x33, 0x33] = { cells := [(0xFFFE, 0x1111), (0xFFFF, 0x2222)] } := by
  decide
/-- M3: the trailing odd byte is ignored. -/
theorem test_load_ignores_an_odd_byte :
    loadImage [0x40, 0x00, 0xAB, 0xCD, 0xEF] = { cells := [(0x4000, 0xABCD)] } := by decide

/-! ## Witnesses: states and operands that meet the statements' hypotheses -/

/-- A running state at the start address. -/
def ready : State := start [(.r0, 0x4000), (.r7, 0x3005)] .z 0x3000 [(0x3000, 0x1025)]

theorem witness_DecodeOfEncodeIsIdentity : Instr.wellFormed (.br true false false 0x1FF#9) = true := by decide
theorem witness_IgnoredBitsDoNotMatter :
    (0x903F#16 ^^^ 0x9000#16) &&& ~~~((decode 0x903F#16).ignoredBits) = 0 := by decide
theorem witness_StepRunsTheDecodedInstruction :
    ready.running = true ∧ ready.abortRequested = false ∧ ready.busy = none ∧ ready.pc ≠ Config.kbsrAddr := by decide
theorem witness_FetchAtStatusAddressRunsTheUpdatedWord_no_key :
    let s := startHost [] .z 0xFE00 [] [none]
    s.running = true ∧ s.abortRequested = false ∧ s.busy = none ∧ s.pc = Config.kbsrAddr ∧ (askHost s).1 = none := by
  decide
theorem witness_FetchAtStatusAddressRunsTheUpdatedWord_key :
    let s := startHost [] .z 0xFE00 [] [some 0x41]
    s.running = true ∧ s.abortRequested = false ∧ s.busy = none ∧ s.pc = Config.kbsrAddr ∧
      (askHost s).1 = some 0x41 := by decide
theorem witness_HaltedMachineNeverChanges : { ready with running := false }.running = false := by decide
theorem witness_AbortEndsTheRun :
    let s := { ready with abortRequested := true, busy := some .inEcho }
    let u := { ready with abortRequested := true, busy := some (.puts 0xFE00) }
    s.running = true ∧ s.abortRequested = true ∧ s.busy = some .inEcho ∧ u.running = true ∧ u.busy = some (.puts 0xFE00) := by
  decide
/-- 60_exceptions.md R183: an abort does not fall inside the step of a PUTS that has not ended. -/
theorem test_abort_waits_for_the_string :
    (stepped { start [] .z 0x3000 [(0x4000, 0x0041)] with abortRequested := true, busy := some (.puts 0x4000) }).map
      (fun t => (t.output, t.busy, t.abortRequested)) = some ([0x41], none, true) := by decide
/-- 60_exceptions.md R183: it does fall in the blocking read of GETC. -/
theorem test_abort_in_the_wait :
    stepped { ready with abortRequested := true, busy := some .getc, hostScript := [some 0x41] } = none := by decide
theorem witness_WaitEndsWithTheHostsCharacter_getc_no_key :
    let s := { ready with busy := some .getc, hostScript := [none] }
    s.running = true ∧ s.abortRequested = false ∧ s.busy = some .getc ∧ (askHost s).1 = none := by decide
theorem witness_WaitEndsWithTheHostsCharacter_getc_key :
    let s := { ready with busy := some .getc, hostScript := [some 0xFF] }
    s.running = true ∧ s.abortRequested = false ∧ s.busy = some .getc ∧ (askHost s).1 = some 0xFF := by decide
theorem witness_WaitEndsWithTheHostsCharacter_in_no_key :
    let s := { ready with busy := some .inEcho, hostScript := [none, none] }
    s.running = true ∧ s.abortRequested = false ∧ s.busy = some .inEcho ∧ (askHost s).1 = none := by decide
theorem witness_WaitEndsWithTheHostsCharacter_in_key :
    let s := { ready with busy := some .inEcho, hostScript := [some 0x00] }
    s.running = true ∧ s.abortRequested = false ∧ s.busy = some .inEcho ∧ (askHost s).1 = some 0x00 := by decide
theorem witness_SignAndZeroExtension_boundaries :
    2 ^ (5 - 1) ≤ (0x10#5).toNat ∧ ¬2 ^ (5 - 1) ≤ (0x0F#5).toNat ∧ 2 ^ (11 - 1) ≤ (0x400#11).toNat := by decide
theorem witness_SetccReflectsTheWrittenRegister : definesOf (.lea .r0 0#9) = some .r0 := by decide
theorem witness_RegisterAndImmediateModesAgree :
    (start [(.r1, 0xFFF0)] .z 0x3000 []).reg .r1 = sext 0x10#5 := by decide
theorem witness_CondWritersAndReaders :
    definesOf (.ldi .r7 0#9) = some .r7 ∧ definesOf .getc = none ∧ isBr (.nop 0#9) = false ∧
    definesOf (.not .r0 .r0) ≠ none ∧ isBr (.not .r0 .r0) = false := by decide
theorem witness_BranchIsTakenWhenARequestedFlagHolds :
    (true = true ∧ ready.cond = .z) ∧
    ¬((true = true ∧ ready.cond = .n) ∨ (false = true ∧ ready.cond = .z) ∨ (true = true ∧ ready.cond = .p)) := by decide
theorem witness_CallThroughRegisterLinksFirst : Reg.r6 ≠ .r7 ∧ Reg.r7 = .r7 := by decide
theorem witness_NoOpsChangeNothing :
    ((0x1F#8).toNat < 0x20 ∨ 0x25 < (0x1F#8).toNat) ∧ ((0x26#8).toNat < 0x20 ∨ 0x25 < (0x26#8).toNat) := by decide
theorem witness_UnknownEncodingsOnlyAdvancePc :
    decode (fetch (start [] .z 0x3000 [(0x3000, 0x8000)])).1 = .reserved8 ∧
    decode (fetch (start [] .z 0x3000 [(0x3000, 0xDEAD)])).1 = .reserved13 ∧
    decode (fetch (start [] .z 0x3000 [(0x3000, 0xF026)])).1 = .trap 0x26#8 ∧
    decode (fetch (startHost [] .z 0xFE00 [] [some 0x41])).1 = .reserved8 := by decide
theorem witness_ReadsElsewhereArePlain : Config.kbdrAddr ≠ Config.kbsrAddr ∧ (0xFE01 : Word) ≠ Config.kbsrAddr := by decide
theorem witness_HostAnswersAreTakenInOrder :
    { ready with hostScript := [none] }.hostScript = none :: [] ∧ ready.hostScript = [] := by decide
theorem witness_StatusReadPollsTheHost :
    { ready with hostScript := [none] }.hostScript = none :: [] ∧
    { ready with hostScript := [some 0x41] }.hostScript = some 0x41 :: [] ∧ ready.hostScript = [] := by decide
theorem witness_StatusReadIsReadyOrClear :
    (askHost { ready with hostScript := [none] }).1 = none ∧
    (askHost { ready with hostScript := [some 0xFF] }).1 = some 0xFF := by decide
theorem witness_StoresArePlainAndSilent :
    isTrap (.str .r0 .r1 0#6) = false ∧ (0x0000 : Word) ≠ Config.kbsrAddr := by decide
theorem witness_PlainLoadsReadTheStoredWord :
    pcRelative 0#9 ready ≠ Config.kbsrAddr ∧ basePlusOffset .r0 0x3F#6 ready ≠ Config.kbsrAddr ∧
    ready.mem.read (pcRelative 0#9 ready) ≠ Config.kbsrAddr := by decide
theorem witness_PlainIndirectStoreWritesThroughThePointer : pcRelative 0x1FF#9 ready ≠ Config.kbsrAddr := by decide
theorem witness_NextFetchSeesTheStore_st :
    ready.running = true ∧ ready.abortRequested = false ∧ ready.busy = none ∧ ready.pc ≠ Config.kbsrAddr ∧
    storesTo (.st .r7 0#9) ready = some ready.pc ∧ storedRegister (.st .r7 0#9) = some .r7 ∧
    exec (.st .r7 0#9) ready = .next (memWrite (pcRelative 0#9 ready) (ready.reg .r7) ready) :=
  ⟨rfl, rfl, rfl, by decide, by decide, rfl, rfl⟩
theorem witness_NextFetchSeesTheStore_str :
    let s := start [(.r1, 0x3001)] .z 0x3000 []
    storesTo (.str .r7 .r1 0x3F#6) s = some s.pc ∧ storedRegister (.str .r7 .r1 0x3F#6) = some .r7 := by decide
theorem witness_NextFetchSeesTheStore_sti :
    let s := start [] .z 0x3000 [(0x3001, 0x3000)]
    storesTo (.sti .r7 1#9) s = some s.pc ∧ storedRegister (.sti .r7 1#9) = some .r7 := by decide
theorem witness_MemoryChangesOnlyByStoresAndStatusReads :
    exec (.st .r7 0#9) ready = .next (memWrite (pcRelative 0#9 ready) (ready.reg .r7) ready) ∧
    storesTo (.st .r7 0#9) ready ≠ some 0x3001 ∧ (0x3001 : Word) ≠ Config.kbsrAddr ∧ (0x3001 : Word) ≠ Config.kbdrAddr :=
  ⟨rfl, by decide, by decide, by decide⟩
theorem witness_GetcReadsACharacter : (askHost (startHost [] .z 0x3000 [] [some 0xFF])).1 = some 0xFF := by decide
theorem witness_InPromptsReadsAndEchoes : (askHost (startHost [] .z 0x3000 [] [some 0x7A])).1 = some 0x7A := by decide
theorem witness_BlockingReadsEndOrWait :
    (askHost (startHost [] .z 0x3000 [] [none])).1 = none ∧
    (askHost (startHost [] .z 0x3000 [] [some 0xFF])).1 = some 0xFF ∧
    exec .getc ready = .next (takeGetc ready) := ⟨by decide, by decide, rfl⟩

/-- A string that wraps past the end of memory (PS4). -/
def wrapping : State := start [(.r0, 0xFFFF)] .z 0x3000 [(0x0000, 0x0159), (0xFFFF, 0x0058)]

theorem witness_PutsWritesTheStringUpToTheZeroWord :
    StringAt wrapping.mem (wrapping.reg .r0) [0x0058, 0x0159] ∧ [(0x0058 : Word), 0x0159].length < 65536 ∧
    Config.kbsrAddr ∉ addressesFrom (wrapping.reg .r0) (2 + 1) ∧ wrapping.busy = none :=
  ⟨⟨by decide, by decide, by decide, by decide, rfl⟩, by decide, by decide, rfl⟩
theorem witness_PutspWritesThePackedString :
    StringAt wrapping.mem (wrapping.reg .r0) [0x0058, 0x0159] ∧ [(0x0058 : Word), 0x0159].length < 65536 ∧
    Config.kbsrAddr ∉ addressesFrom (wrapping.reg .r0) (2 + 1) ∧ wrapping.busy = none :=
  witness_PutsWritesTheStringUpToTheZeroWord

/-- A string that runs into the keyboard status word (K12), no key being ready. -/
def intoStatus : State := startHost [(.r0, 0xFDFF)] .z 0x3000 [(0xFDFF, 0x0041), (0xFE00, 0x0042)] [none]

/-- The same string with a key ready: the updated status word and the word after it are written, then the character itself from
the data word, up to the zero word at 0xFE03. -/
def overStatus : State :=
  startHost [(.r0, 0xFDFF)] .z 0x3000 [(0xFDFF, 0x0041), (0xFE00, 0x0042), (0xFE01, 0x0043)] [some 0x44]

/-- 20_memory.md R57, 43_trap.md R154, by hand: 0xFE00 reads 0x8042, 0xFE02 reads 0x0044. -/
theorem test_puts_over_the_status_word_with_a_key :
    (run 0xF022 overStatus).map (fun t => (t.output, t.mem.read 0xFE00)) = some ([0x41, 0x42, 0x43, 0x44], 0x8042) := by
  decide
theorem witness_StringsOverTheStatusWordPoll_no_key :
    WordsAt intoStatus.mem (intoStatus.reg .r0) [0x0041] ∧ intoStatus.reg .r0 + BitVec.ofNat 16 1 = Config.kbsrAddr ∧
    intoStatus.busy = none ∧ (askHost intoStatus).1 = none ∧ [(0x0041 : Word)].length < 65536 :=
  ⟨⟨by decide, by decide, trivial⟩, by decide, rfl, by decide, by decide⟩
theorem witness_StringsOverTheStatusWordPoll_key :
    WordsAt overStatus.mem (overStatus.reg .r0) [0x0041] ∧ overStatus.reg .r0 + BitVec.ofNat 16 1 = Config.kbsrAddr ∧
    overStatus.busy = none ∧ (askHost overStatus).1 = some 0x44 ∧
    StringAt (memAfterKey overStatus.mem 0x44) (Config.kbsrAddr + 1) [0x0043, 0x0044] ∧ 1 + 1 + 2 < 65536 :=
  ⟨⟨by decide, by decide, trivial⟩, by decide, rfl, by decide, ⟨by decide, by decide, by decide, by decide, by unfold StringAt; decide⟩,
    by decide⟩
theorem witness_UnfinishedStringGoesOnFromItsPointer :
    let s := { ready with busy := some (.puts 0xFFFF) }
    let u := { ready with busy := some (.putsp 0x0000) }
    s.running = true ∧ s.busy = some (.puts 0xFFFF) ∧ u.running = true ∧ u.busy = some (.putsp 0x0000) := by decide
theorem witness_OnlyTheHostRaisesTheAbort :
    exec .getc ready = .next (takeGetc ready) ∧ step State.reset = .next { State.reset with pc := 0x3001 } := ⟨rfl, rfl⟩
theorem witness_OnlyHaltClearsRunning :
    exec .halt ready = .next (haltRoutine ready) ∧ exec (.jmp .r0) ready = .next (jumpTo .r0 ready) := ⟨rfl, rfl⟩

/-- The source's scenario 2: HALT at the start address. -/
def atHalt : State := start [] .z 0x3000 [(0x3000, 0xF025)]

theorem witness_RunningIsClearedOnlyByFetchingHalt :
    step atHalt = .next (haltRoutine (fetch atHalt).2) ∧ atHalt.running = true ∧
    (haltRoutine (fetch atHalt).2).running = false := ⟨rfl, rfl, rfl⟩
theorem witness_StepKeepsTheInvariant :
    atHalt.Inv ∧ step atHalt = .next (haltRoutine (fetch atHalt).2) := ⟨⟨rfl, fun _ => rfl⟩, rfl⟩
theorem witness_OutputOnlyGrowsAtItsEnd : core.run 1 atHalt = .next (haltRoutine (fetch atHalt).2) := rfl
theorem witness_CanonicalMemoriesThatReadAlikeAreEqual :
    Memory.wf { cells := [(0x0000, 0x0001), (0xFFFF, 0x8000)] } = true := by decide
theorem witness_ImageWordsAreBigEndian :
    [(0x34 : Byte), 0x12, 0x25, 0x10][2 * 1]? = some 0x25 ∧ [(0x34 : Byte), 0x12, 0x25, 0x10][2 * 1 + 1]? = some 0x10 ∧
    imageWords [(0x34 : Byte), 0x12, 0x25, 0x10] = 0x3412 :: [0x2510] ∧ [(0x2510 : Word)][0]? = some 0x2510 ∧
    (0x3412 : Word).toNat + 0 < 65536 := by
  decide
theorem witness_LoadPlacesThePayloadAtTheOrigin :
    imageWords [0xFF, 0xFF, 0x11, 0x11, 0x22, 0x22] = 0xFFFF :: [0x1111, 0x2222] := by decide
theorem witness_BootStartsAtTheFixedAddress : [(0x30 : Byte)].length < 2 := by decide

end Sys2Proof.Tests
end

section
/-! PROOFS. The extensions of immediates, offsets and characters (spec/00_scope.md R10). R10's formula for `sext` is
proved bit by bit at every width, its value by the sign bit at widths 1 to 16; the obligation takes both at 5, 6, 9 and 11. -/

namespace Sys2Proof.Machine

/-- Above bit N - 1 the extension repeats the sign bit: `sext` bit by bit. -/
theorem getLsbD_sext {n : Nat} (v : BitVec n) (i : Nat) :
    (sext v).getLsbD i = (decide (i < 16) && if i < n then v.getLsbD i else v.msb) := by
  rw [sext, BitVec.getLsbD_signExtend]

/-- The mask `0xFFFF << N` of R10 has exactly the bits from N up. -/
theorem getLsbD_maskFrom (n i : Nat) :
    (0xFFFF#16 <<< n).getLsbD i = (decide (i < 16) && decide (n ≤ i)) := by
  rw [show (0xFFFF#16) = BitVec.allOnes 16 from rfl, BitVec.getLsbD_shiftLeft, BitVec.getLsbD_allOnes]
  rcases Nat.lt_or_ge i n with hbelow | hfrom
  · simp [hbelow]
  · have hsub : i < 16 → i - n < 16 := by omega
    by_cases hi : i < 16 <;> simp [hi, hfrom, hsub]

/-- R10's formula, at every width. -/
theorem sext_eq_or_maskFrom {n : Nat} (v : BitVec n) :
    sext v = if v.getLsbD (n - 1) then v.setWidth 16 ||| (0xFFFF#16 <<< n) else v.setWidth 16 := by
  rw [← BitVec.msb_eq_getLsbD_last]
  split
  next hneg =>
    apply BitVec.eq_of_getLsbD_eq
    intro i hi
    rw [getLsbD_sext, BitVec.getLsbD_or, BitVec.getLsbD_setWidth, getLsbD_maskFrom, hneg]
    rcases Nat.lt_or_ge i n with hoperand | habove
    · simp [hi, hoperand]
    · simp [hi, habove]
  next hnonneg =>
    apply BitVec.eq_of_getLsbD_eq
    intro i hi
    rw [getLsbD_sext, BitVec.getLsbD_setWidth]
    rcases Nat.lt_or_ge i n with hoperand | habove
    · rw [if_pos hoperand]
    · rw [if_neg (Nat.not_lt.mpr habove), BitVec.getLsbD_of_ge v i habove, Bool.eq_false_of_not_eq_true hnonneg]

/-- The extension is the two's-complement value modulo 65536, at every width. -/
theorem toNat_sext {n : Nat} (v : BitVec n) : ((sext v).toNat : Int) = v.toInt % 65536 := by
  rw [sext, BitVec.signExtend, BitVec.toNat_ofInt]
  omega

/-- The same by the sign bit: a set bit N - 1 takes 2^N off, and otherwise the number is unchanged. -/
theorem toNat_sext_eq_ite {n : Nat} (v : BitVec n) (hpos : 0 < n) (hle : n ≤ 16) :
    ((sext v).toNat : Int) = if 2 ^ (n - 1) ≤ v.toNat then ((v.toNat : Int) - 2 ^ n) % 65536 else v.toNat := by
  have hhalf : 2 * 2 ^ (n - 1) = 2 ^ n := mul_pow_sub_one hpos.ne' 2
  have hword : 2 ^ n ≤ 2 ^ 16 := Nat.pow_le_pow_right (by decide) hle
  rw [toNat_sext, BitVec.toInt_eq_toNat_cond]
  split
  next hsmall =>
    rw [if_neg (by omega)]
    omega
  next hlarge =>
    rw [if_pos (by omega)]
    push_cast
    rfl

@[simp] theorem lowByte_zext16 (b : Byte) : lowByte (zext16 b) = b := by
  apply BitVec.eq_of_getLsbD_eq
  intro i hi
  have hword : i < 16 := by omega
  simp [lowByte, zext16, hi, hword]

@[simp] theorem highByte_zext16 (b : Byte) : highByte (zext16 b) = 0 := by
  apply BitVec.eq_of_getLsbD_eq
  intro i hi
  simp [highByte, zext16]

end Sys2Proof.Machine

namespace Sys2Proof.Proofs

open Sys2Proof.Machine

/-- Settles O12: each width is a case of R10's formula at every width. -/
theorem signAndZeroExtension : Obligations.SignAndZeroExtension := by
  unfold Obligations.SignAndZeroExtension
  refine ⟨sext_eq_or_maskFrom, sext_eq_or_maskFrom, sext_eq_or_maskFrom, sext_eq_or_maskFrom, ?_, ?_⟩
  · intro n v hn
    exact toNat_sext_eq_ite v (by omega) (by omega)
  · exact fun b => ⟨lowByte_zext16 b, highByte_zext16 b⟩

end Sys2Proof.Proofs
end

section
/-! PROOFS. The registers and the flags (spec/10_state.md R20, R25). Every value-defining instruction ends with `defineReg`,
and `defineReg` ends with `setcc`; so the flag after it follows DR by what `condOf` says of one value. -/

namespace Sys2Proof.Machine

/-! ## A register write -/

theorem setReg_regsKeptBut (r : Reg) (v : Word) (s : State) : RegsKeptBut [r] s (s.setReg r v) := by
  intro q hq
  exact State.setReg_reg_other s r q v (List.ne_of_not_mem_cons hq)

theorem setReg_lifeKept (r : Reg) (v : Word) (s : State) : LifeKept s (s.setReg r v) :=
  ⟨State.setReg_running s r v, State.setReg_busy s r v, State.setReg_output s r v⟩

theorem setReg_hostKept (r : Reg) (v : Word) (s : State) : HostKept s (s.setReg r v) :=
  ⟨State.setReg_hostScript s r v, State.setReg_hostCalls s r v, State.setReg_abortRequested s r v⟩

/-! ## The flag of a value -/

/-- R25's three cases, in its order: zero, then the high bit, then the rest. -/
theorem flagSays_condOf (v : Word) : FlagSays (condOf v) v := by
  have hzero : v = 0x0000 ↔ v.toNat = 0 := BitVec.toNat_inj.symm
  have hsign : v.msb = true ↔ 0x8000 ≤ v.toNat := by
    rw [BitVec.msb_eq_decide, decide_eq_true_iff]
  simp only [FlagSays, condOf, hzero, hsign]
  split
  next hz => simp [hz]
  next hz =>
    split
    next hneg =>
      simp only [reduceCtorEq, true_iff, false_iff]
      omega
    next hpos =>
      simp only [reduceCtorEq, true_iff, false_iff]
      omega

theorem flagSays_setcc (r : Reg) (s : State) : FlagSays (setcc r s).cond (s.reg r) :=
  flagSays_condOf (s.reg r)

theorem flagSays_defineReg (dr : Reg) (v : Word) (s : State) :
    FlagSays (defineReg dr v s).cond ((defineReg dr v s).reg dr) := by
  rw [defineReg_cond, defineReg_reg_same]
  exact flagSays_condOf v

/-! ## The end of a value-defining instruction -/

/-- R26: the last action of every value-defining instruction is the write of its DR with `setcc(DR)`. The state `u` is the
one its reads leave; nothing is said of it, since the flag depends on the value alone. -/
theorem exec_ends_with_defineReg (i : Instr) (dr : Reg) (s : State) (h : definesOf i = some dr) :
    ∃ v u, exec i s = .next (defineReg dr v u) := by
  cases i with
  | addReg | addImm | andReg | andImm | not | ld | ldi | ldr | lea =>
    cases h
    exact ⟨_, _, rfl⟩
  | br | jmp | ret | jsr | jsrr | nop | st | sti | str => cases h
  | trap | getc | out | puts | inEcho | putsp | halt | reserved8 | reserved13 => cases h

end Sys2Proof.Machine

namespace Sys2Proof.Proofs

open Sys2Proof.Machine

/-- Settles O15: `setcc` by what `condOf` says of a value, the instructions by the `defineReg` each ends with. -/
theorem setccReflectsTheWrittenRegister : Obligations.SetccReflectsTheWrittenRegister := by
  unfold Obligations.SetccReflectsTheWrittenRegister
  refine ⟨fun r s => ⟨flagSays_setcc r s, rfl⟩, ?_⟩
  intro i dr s hdef
  obtain ⟨v, u, hexec⟩ := exec_ends_with_defineReg i dr s hdef
  exact ⟨defineReg dr v u, hexec, flagSays_defineReg dr v u⟩

/-- Settles O14: the register file's laws, and the two directions between fields and registers. -/
theorem registersAreEightOrdinaryWords : Obligations.RegistersAreEightOrdinaryWords := by
  unfold Obligations.RegistersAreEightOrdinaryWords
  refine ⟨?_, Reg.ofBits_toBits, Reg.toBits_ofBits⟩
  intro s r v
  exact ⟨State.setReg_reg_same s r v, setReg_regsKeptBut r v s, State.setReg_pc s r v, State.setReg_cond s r v,
    State.setReg_mem s r v, setReg_lifeKept r v s, setReg_hostKept r v s⟩

end Sys2Proof.Proofs
end

section
/-! PROOFS. Stores, reads and the output stream (spec/20_memory.md R52, R55). `memWrite` and every other operation outside
the trap routines keeps the lifecycle flags and the output stream; each instruction that is no TRAP is one or two of these
operations after another. -/

namespace Sys2Proof.Machine

/-! ## A store -/

theorem memWrite_read_same (a v : Word) (s : State) : (memWrite a v s).mem.read a = v :=
  Memory.read_write_same s.mem a v

theorem memWrite_wordsKeptBut (a v : Word) (s : State) : WordsKeptBut [a] s (memWrite a v s) := by
  intro b hb
  exact Memory.read_write_other s.mem a b v (List.ne_of_not_mem_cons hb)

theorem memWrite_regsKept (a v : Word) (s : State) : RegsKeptBut [] s (memWrite a v s) :=
  fun r _ => memWrite_reg a v s r

theorem memWrite_hostKept (a v : Word) (s : State) : HostKept s (memWrite a v s) :=
  ⟨memWrite_hostScript a v s, memWrite_hostCalls a v s, memWrite_abortRequested a v s⟩

/-! ## Lifecycle and output are kept -/

theorem LifeKept.refl (s : State) : LifeKept s s :=
  ⟨rfl, rfl, rfl⟩

theorem LifeKept.trans {s t u : State} (hst : LifeKept s t) (htu : LifeKept t u) : LifeKept s u := by
  obtain ⟨hrun, hbusy, hout⟩ := hst
  obtain ⟨hrun', hbusy', hout'⟩ := htu
  exact ⟨hrun'.trans hrun, hbusy'.trans hbusy, hout'.trans hout⟩

theorem memWrite_lifeKept (a v : Word) (s : State) : LifeKept s (memWrite a v s) :=
  ⟨memWrite_running a v s, memWrite_busy a v s, memWrite_output a v s⟩

theorem memRead_lifeKept (a : Word) (s : State) : LifeKept s (memRead a s).2 :=
  ⟨memRead_running a s, memRead_busy a s, memRead_output a s⟩

theorem setPc_lifeKept (target : Word) (s : State) : LifeKept s (s.setPc target) :=
  ⟨State.setPc_running s target, State.setPc_busy s target, State.setPc_output s target⟩

theorem defineReg_lifeKept (dr : Reg) (v : Word) (s : State) : LifeKept s (defineReg dr v s) :=
  ⟨defineReg_running dr v s, defineReg_busy dr v s, defineReg_output dr v s⟩

theorem loadFrom_lifeKept (dr : Reg) (ea : Word) (s : State) : LifeKept s (loadFrom dr ea s) :=
  (memRead_lifeKept ea s).trans (defineReg_lifeKept dr _ _)

theorem branch_lifeKept (n z p : Bool) (offset9 : BitVec 9) (s : State) : LifeKept s (branch n z p offset9 s) := by
  unfold branch
  split
  next taken => exact setPc_lifeKept _ s
  next notTaken => exact LifeKept.refl s

/-! ## Instructions other than TRAP -/

/-- An instruction that is no TRAP under any name ends in a next state, starts and ends no routine, keeps the machine
running or halted, and writes no byte. -/
theorem exec_lifeKept_of_not_isTrap (i : Instr) (s : State) (h : isTrap i = false) :
    ∃ t, exec i s = .next t ∧ LifeKept s t := by
  cases i with
  | addReg | addImm | andReg | andImm | not | lea => exact ⟨_, rfl, defineReg_lifeKept _ _ s⟩
  | ld | ldr => exact ⟨_, rfl, loadFrom_lifeKept _ _ s⟩
  | ldi dr offset9 => exact ⟨_, rfl, (memRead_lifeKept _ s).trans (loadFrom_lifeKept dr _ _)⟩
  | st | str => exact ⟨_, rfl, memWrite_lifeKept _ _ s⟩
  | sti sr offset9 => exact ⟨_, rfl, (memRead_lifeKept _ s).trans (memWrite_lifeKept _ _ _)⟩
  | br | nop => exact ⟨_, rfl, branch_lifeKept _ _ _ _ s⟩
  | jmp | ret => exact ⟨_, rfl, setPc_lifeKept _ s⟩
  | jsr | jsrr => exact ⟨_, rfl, (setReg_lifeKept .r7 s.pc s).trans (setPc_lifeKept _ _)⟩
  | reserved8 | reserved13 => exact ⟨s, rfl, LifeKept.refl s⟩
  | trap | getc | out | puts | inEcho | putsp | halt => cases h

end Sys2Proof.Machine

namespace Sys2Proof.Proofs

open Sys2Proof.Machine

/-- Settles O29: the store by the frame of `memWrite`, the read by `memRead_plain`, the output stream by what every
instruction other than TRAP keeps. -/
theorem storesArePlainAndSilent : Obligations.StoresArePlainAndSilent := by
  unfold Obligations.StoresArePlainAndSilent
  refine ⟨?store, ?read, ?output⟩
  case store =>
    intro a v s
    exact ⟨memWrite_read_same a v s, memWrite_wordsKeptBut a v s, memWrite_regsKept a v s, memWrite_pc a v s,
      memWrite_cond a v s, memWrite_lifeKept a v s, memWrite_hostKept a v s⟩
  case read =>
    intro a s ha
    rw [memRead_plain a s ha]
  case output =>
    intro i s hi
    obtain ⟨t, hexec, _, _, hout⟩ := exec_lifeKept_of_not_isTrap i s hi
    exact ⟨t, hexec, hout⟩

end Sys2Proof.Proofs
end

section
/-! PROOFS. Reserved opcodes and unknown trap vectors (spec/30_encoding.md R91). The meaning of such an instruction is to do
nothing, so the state after the step is the one the fetch leaves: what a `MemRead` at `pc` keeps, with `pc` incremented. -/

namespace Sys2Proof.Machine

/-! ## The frame of a read and of the fetch -/

theorem memRead_wordsKeptBut (a : Word) (s : State) : WordsKeptBut (touchedByRead a) s (memRead a s).2 := by
  intro b hb
  apply memRead_read_other
  intro ha
  simpa [touchedByRead, ha] using hb

theorem fetch_regsKept (s : State) : RegsKeptBut [] s (fetch s).2 :=
  fun r _ => memRead_reg s.pc s r

theorem fetch_cond (s : State) : (fetch s).2.cond = s.cond :=
  memRead_cond s.pc s

theorem fetch_lifeKept (s : State) : LifeKept s (fetch s).2 :=
  (memRead_lifeKept s.pc s).trans (setPc_lifeKept _ _)

theorem fetch_wordsKeptBut (s : State) : WordsKeptBut (touchedByRead s.pc) s (fetch s).2 :=
  memRead_wordsKeptBut s.pc s

/-! ## The step that fetches -/

/-- R30: a running machine without an abort and without an unfinished routine fetches and executes. -/
theorem step_eq_exec_fetch (s : State) (hrun : s.running = true) (habort : s.abortRequested = false)
    (hbusy : s.busy = none) : step s = exec (decode (fetch s).1) (fetch s).2 := by
  simp [step, hrun, habort, hbusy]

/-! ## Unknown trap vectors -/

/-- The decoder gives a routine's vector the routine's own name, so what it names TRAP has an unknown vector (R93). -/
theorem not_isRoutineVector_of_decodeTrap {x : Word} {v : BitVec 8} (h : decodeTrap x = .trap v) :
    isRoutineVector v = false := by
  unfold decodeTrap at h
  split at h
  case h_7 h20 h21 h22 h23 h24 h25 =>
    cases h
    rw [imp_false] at h20 h21 h22 h23 h24 h25
    simp only [isRoutineVector, Bool.and_eq_false_iff, decide_eq_false_iff_not]
    omega
  all_goals cases h

/-- Only TRAP's opcode leads to a TRAP. -/
theorem not_isRoutineVector_of_decode {x : Word} {v : BitVec 8} (h : decode x = .trap v) :
    isRoutineVector v = false := by
  unfold decode at h
  generalize opcodeOf (field 4 12 x) = o at h
  cases o with
  | trap => exact not_isRoutineVector_of_decodeTrap h
  | br | add | and | jsr | jmp =>
    simp only [decodeBr, decodeAdd, decodeAnd, decodeJsr, decodeJmp] at h
    split at h <;> cases h
  | ld | st | ldr | str | not | ldi | sti | lea | reserved8 | reserved13 => cases h

/-- A vector that selects no routine is a no-op (43_trap.md R158). -/
theorem exec_trap_unknown {v : BitVec 8} (hv : isRoutineVector v = false) (s : State) :
    exec (.trap v) s = .next s := by
  change execTrap v s = .next s
  simp only [isRoutineVector, Bool.and_eq_false_iff, decide_eq_false_iff_not] at hv
  unfold execTrap
  split
  case h_7 => rfl
  all_goals omega

/-- What the decoder names reserved or TRAP changes nothing (R91). -/
theorem exec_decode_unknown {x : Word} (s : State)
    (h : decode x = .reserved8 ∨ decode x = .reserved13 ∨ ∃ v : BitVec 8, decode x = .trap v) :
    exec (decode x) s = .next s := by
  obtain h8 | h13 | ⟨v, htrap⟩ := h
  · rw [h8]; rfl
  · rw [h13]; rfl
  · rw [htrap]; exact exec_trap_unknown (not_isRoutineVector_of_decode htrap) s

end Sys2Proof.Machine

namespace Sys2Proof.Proofs

open Sys2Proof.Machine

/-- Settles O24: the instruction does nothing, so the step is the fetch, and the fetch is a `MemRead` and the increment. -/
theorem unknownEncodingsOnlyAdvancePc : Obligations.UnknownEncodingsOnlyAdvancePc := by
  unfold Obligations.UnknownEncodingsOnlyAdvancePc
  intro s hrun habort hbusy hunknown
  have hstep : step s = .next (fetch s).2 :=
    (step_eq_exec_fetch s hrun habort hbusy).trans (exec_decode_unknown (fetch s).2 hunknown)
  exact ⟨(fetch s).2, hstep, fetch_pc s, fetch_regsKept s, fetch_cond s, fetch_lifeKept s, fetch_wordsKeptBut s⟩

end Sys2Proof.Proofs
end

section
/-! PROOFS. The blocking reads GETC and IN (spec/43_trap.md R152, R155; 10_state.md R35). Each look at the host either ends
the routine with a character or leaves it waiting; what both keep is one frame, and the routine's own step and every later
step of its wait take the same look. -/

namespace Sys2Proof.Machine

/-! ## What every look at the host keeps -/

/-- The common frame of GETC and IN, ended or waiting: all but R0, the output, `busy` and the host's answers is kept. -/
def CharReadKeeps (s t : State) : Prop :=
  RegsKeptBut [.r0] s t ∧ t.cond = s.cond ∧ t.pc = s.pc ∧ t.running = s.running ∧
    t.abortRequested = s.abortRequested ∧ WordsKeptBut [] s t

theorem takeGetc_charReadKeeps (s : State) : CharReadKeeps s (takeGetc s) := by
  obtain ⟨script, calls, hwait | ⟨c, hchar⟩⟩ := takeGetc_cases s
  · rw [hwait]
    exact ⟨fun _ _ => rfl, rfl, rfl, rfl, rfl, fun _ _ => rfl⟩
  · rw [hchar]
    exact ⟨setReg_regsKeptBut .r0 _ _, rfl, rfl, rfl, rfl, fun _ _ => rfl⟩

theorem takeInEcho_charReadKeeps (s : State) : CharReadKeeps s (takeInEcho s) := by
  obtain ⟨script, calls, hwait | ⟨c, hchar⟩⟩ := takeInEcho_cases s
  · rw [hwait]
    exact ⟨fun _ _ => rfl, rfl, rfl, rfl, rfl, fun _ _ => rfl⟩
  · rw [hchar]
    exact ⟨setReg_regsKeptBut .r0 _ _, rfl, rfl, rfl, rfl, fun _ _ => rfl⟩

/-- The prompt is output alone, so the frame of IN is that of its look at the host. -/
theorem inEchoRoutine_charReadKeeps (s : State) : CharReadKeeps s (inEchoRoutine s) :=
  takeInEcho_charReadKeeps (s.emit Config.inPrompt)

/-! ## The look that ends the routine -/

theorem toNat_zext16 (b : Byte) : (zext16 b).toNat = b.toNat := by
  rw [zext16, BitVec.toNat_setWidth]
  omega

/-- The routine has ended with the character: R0 has it zero-extended, and these bytes have been written. -/
def CharTaken (c : Byte) (echo : List Byte) (s t : State) : Prop :=
  t.busy = none ∧ HostKept (askHost s).2 t ∧ t.output = s.output ++ echo ∧ (t.reg .r0).toNat = c.toNat

theorem takeGetc_charTaken (s : State) (c : Byte) (h : (askHost s).1 = some c) : CharTaken c [] s (takeGetc s) := by
  rw [takeGetc_char s c h]
  refine ⟨rfl, ⟨rfl, rfl, rfl⟩, by simp, ?_⟩
  rw [State.setBusy_reg, State.setReg_reg_same, toNat_zext16]

theorem takeInEcho_charTaken (s : State) (c : Byte) (h : (askHost s).1 = some c) : CharTaken c [c] s (takeInEcho s) := by
  rw [takeInEcho_char s c h]
  refine ⟨rfl, ⟨rfl, rfl, rfl⟩, by simp, ?_⟩
  rw [State.setBusy_reg, State.setReg_reg_same, toNat_zext16]

/-! ## The look that waits -/

/-- IN's first look, without a character: the prompt is out, and the routine waits. -/
theorem inEchoRoutine_wait (s : State) (h : (askHost s).1 = none) :
    inEchoRoutine s = ((askHost s).2.emit Config.inPrompt).setBusy (some .inEcho) := by
  have hprompted : (askHost (s.emit Config.inPrompt)).1 = none := by rw [askHost_emit, h]
  rw [inEchoRoutine, takeInEcho_wait _ hprompted, askHost_emit]

/-! ## A step of the wait -/

/-- A running machine without an abort goes on with its unfinished routine (R33 (c)). -/
theorem step_eq_resume (s : State) (r : Routine) (hrun : s.running = true) (habort : s.abortRequested = false)
    (hbusy : s.busy = some r) : step s = .next (resume r s) := by
  simp [step, hrun, habort, hbusy]

theorem setBusy_of_busy_eq {s : State} {b : Option Routine} (h : s.busy = b) : s.setBusy b = s := by
  subst h
  rfl

/-- Without a character the wait goes on as it was: only the host's side has changed. -/
theorem step_of_wait_no_character (s : State) (hrun : s.running = true) (habort : s.abortRequested = false)
    (hbusy : s.busy = some .getc ∨ s.busy = some .inEcho) (hnone : (askHost s).1 = none) :
    step s = .next (askHost s).2 := by
  obtain hgetc | hin := hbusy
  · have hstill : (askHost s).2.busy = some .getc := (askHost_busy s).trans hgetc
    rw [step_eq_resume s .getc hrun habort hgetc, resume, takeGetc_wait s hnone, setBusy_of_busy_eq hstill]
  · have hstill : (askHost s).2.busy = some .inEcho := (askHost_busy s).trans hin
    rw [step_eq_resume s .inEcho hrun habort hin, resume, takeInEcho_wait s hnone, setBusy_of_busy_eq hstill]

/-- With a character the wait ends: the character is taken, echoed by IN alone, and the frame of the look is kept. -/
theorem step_of_wait_character (s : State) (c : Byte) (hrun : s.running = true) (habort : s.abortRequested = false)
    (hbusy : s.busy = some .getc ∨ s.busy = some .inEcho) (hsome : (askHost s).1 = some c) :
    ∃ t, step s = .next t ∧ CharTaken c (if s.busy = some .inEcho then [c] else []) s t ∧ CharReadKeeps s t := by
  obtain hgetc | hin := hbusy
  · rw [if_neg (by simp [hgetc])]
    exact ⟨takeGetc s, step_eq_resume s .getc hrun habort hgetc, takeGetc_charTaken s c hsome,
      takeGetc_charReadKeeps s⟩
  · rw [if_pos hin]
    exact ⟨takeInEcho s, step_eq_resume s .inEcho hrun habort hin, takeInEcho_charTaken s c hsome,
      takeInEcho_charReadKeeps s⟩

end Sys2Proof.Machine

namespace Sys2Proof.Proofs

open Sys2Proof.Machine

/-- Settles O41: one look at the host, without a character, with one, and what both keep; IN's look is taken after its
prompt, which the host does not see. -/
theorem blockingReadsEndOrWait : Obligations.BlockingReadsEndOrWait := by
  unfold Obligations.BlockingReadsEndOrWait
  intro s
  refine ⟨?wait, ?character, ?frame⟩
  case wait =>
    intro hnone
    constructor
    · exact congrArg Host.Outcome.next (takeGetc_wait s hnone)
    · rw [← askHost_output s]
      exact congrArg Host.Outcome.next (inEchoRoutine_wait s hnone)
  case character =>
    intro c hsome
    constructor
    · obtain ⟨hbusy, _, hout, hr0⟩ := takeGetc_charTaken s c hsome
      exact ⟨takeGetc s, rfl, hbusy, by simpa using hout, hr0⟩
    · have hprompted : (askHost (s.emit Config.inPrompt)).1 = some c := by rw [askHost_emit, hsome]
      obtain ⟨hbusy, _, hout, hr0⟩ := takeInEcho_charTaken (s.emit Config.inPrompt) c hprompted
      exact ⟨inEchoRoutine s, rfl, hbusy, hout, hr0⟩
  case frame =>
    rintro t (hgetc | hin)
    · cases hgetc
      exact takeGetc_charReadKeeps s
    · cases hin
      exact inEchoRoutine_charReadKeeps s

/-- Settles O10: a step of the wait is the routine's look at the host, which waits on or takes the character. -/
theorem waitEndsWithTheHostsCharacter : Obligations.WaitEndsWithTheHostsCharacter := by
  unfold Obligations.WaitEndsWithTheHostsCharacter
  intro s hrun habort hbusy
  refine ⟨step_of_wait_no_character s hrun habort hbusy, ?character⟩
  case character =>
    intro c hsome
    obtain ⟨t, hstep, ⟨hended, hhost, hout, hr0⟩, hregs, hcond, hpc, hrunning, _, hwords⟩ :=
      step_of_wait_character s c hrun habort hbusy hsome
    have hecho : t.output = if s.busy = some .inEcho then s.output ++ [c] else s.output := by
      rw [hout]
      split <;> simp
    exact ⟨t, hstep, hended, hhost, hecho, hr0, hregs, hwords, hpc, hcond, hrunning.trans hrun⟩

end Sys2Proof.Proofs
end

section
/-! PROOFS. PUTS and PUTSP in every state (spec/43_trap.md R154, R156). A walk that has not met a zero word has written the
bytes of as many words as it had fuel, and stands that many addresses further on; a whole lap's fuel is 65536, so the
pointer is back where it began. -/

namespace Sys2Proof.Machine

/-! ## The walk that has not ended -/

/-- The pointer and the output of a walk that has not ended: the words `ws` are what its reads answered. -/
theorem walk_not_ended (bytesOf : Word → List Byte) (fuel : Nat) (a b : Word) (s : State)
    (h : (walk bytesOf fuel a s).1 = some b) :
    b = a + BitVec.ofNat 16 fuel ∧
      ∃ ws : List Word, ws.length = fuel ∧ (walk bytesOf fuel a s).2.output = s.output ++ ws.flatMap bytesOf := by
  induction fuel generalizing a s with
  | zero =>
    cases h
    exact ⟨(BitVec.add_zero b).symm, [], rfl, (List.append_nil _).symm⟩
  | succ fuel ih =>
    by_cases hz : (memRead a s).1 = 0x0000
    · rw [walk_zero_word bytesOf fuel a s hz] at h
      cases h
    · rw [walk_word bytesOf fuel a s hz] at h ⊢
      obtain ⟨hb, ws, hlen, hout⟩ := ih _ _ h
      refine ⟨?pointer, (memRead a s).1 :: ws, by rw [List.length_cons, hlen], ?output⟩
      case pointer =>
        rw [hb, BitVec.add_assoc, Nat.add_comm fuel 1, BitVec.ofNat_add]
        rfl
      case output =>
        rw [hout, State.emit_output, memRead_output, List.flatMap_cons, List.append_assoc]

/-- A whole lap ends at a zero word, or comes back to where it began with the bytes of 65536 words written. -/
theorem walk_lap_ends_or_returns (bytesOf : Word → List Byte) (a : Word) (s : State) :
    (walk bytesOf Config.stringLap a s).1 = none ∨
      (walk bytesOf Config.stringLap a s).1 = some a ∧ ∃ ws : List Word, ws.length = 65536 ∧
        (walk bytesOf Config.stringLap a s).2.output = s.output ++ ws.flatMap bytesOf := by
  cases hptr : (walk bytesOf Config.stringLap a s).1 with
  | none => exact .inl rfl
  | some b =>
    obtain ⟨hb, hwritten⟩ := walk_not_ended bytesOf Config.stringLap a b s hptr
    have hback : b = a := hb.trans (BitVec.add_zero a)
    exact .inr ⟨congrArg some hback, hwritten⟩

/-! ## How much the routines write -/

theorem length_flatMap_putsBytes (ws : List Word) : (ws.flatMap putsBytes).length = ws.length := by
  simp [List.length_flatMap, putsBytes]

theorem length_putspBytes (w : Word) : 1 ≤ (putspBytes w).length ∧ (putspBytes w).length ≤ 2 := by
  unfold putspBytes
  split <;> simp

theorem length_flatMap_putspBytes (ws : List Word) :
    ws.length ≤ (ws.flatMap putspBytes).length ∧ (ws.flatMap putspBytes).length ≤ 2 * ws.length := by
  induction ws with
  | nil => simp
  | cons w ws ih =>
    have hw := length_putspBytes w
    rw [List.flatMap_cons, List.length_append, List.length_cons]
    omega

/-! ## The routines from a pointer on -/

theorem putsFrom_ends_or_laps (a : Word) (s : State) :
    (putsFrom a s).busy = none ∨
      (putsFrom a s).busy = some (.puts a) ∧ (putsFrom a s).output.length = s.output.length + 65536 := by
  rw [putsFrom, State.setBusy_busy, State.setBusy_output]
  obtain hended | ⟨hptr, ws, hlen, hout⟩ := walk_lap_ends_or_returns putsBytes a s
  · exact .inl (by rw [hended, Option.map_none])
  · refine .inr ⟨by rw [hptr, Option.map_some], ?_⟩
    rw [hout, List.length_append, length_flatMap_putsBytes, hlen]

theorem putspFrom_ends_or_laps (a : Word) (s : State) :
    (putspFrom a s).busy = none ∨
      (putspFrom a s).busy = some (.putsp a) ∧ s.output.length + 65536 ≤ (putspFrom a s).output.length ∧
        (putspFrom a s).output.length ≤ s.output.length + 131072 := by
  rw [putspFrom, State.setBusy_busy, State.setBusy_output]
  obtain hended | ⟨hptr, ws, hlen, hout⟩ := walk_lap_ends_or_returns putspBytes a s
  · exact .inl (by rw [hended, Option.map_none])
  · refine .inr ⟨by rw [hptr, Option.map_some], ?_⟩
    have hbytes := length_flatMap_putspBytes ws
    rw [hout, List.length_append]
    omega

end Sys2Proof.Machine

namespace Sys2Proof.Proofs

open Sys2Proof.Machine

/-- Settles O46: the frame by what every walk keeps, the outcome by what a whole lap of the walk comes to. -/
theorem stringRoutinesEndOrWriteAWholeLap : Obligations.StringRoutinesEndOrWriteAWholeLap := by
  unfold Obligations.StringRoutinesEndOrWriteAWholeLap
  intro s
  constructor
  case left =>
    obtain ⟨hregs, hpc, hcond, hrun, _, _⟩ := walk_keeps_core putsBytes Config.stringLap (s.reg .r0) s
    exact ⟨putsRoutine s, rfl, hregs, hpc, hcond, hrun, putsFrom_ends_or_laps (s.reg .r0) s⟩
  case right =>
    obtain ⟨hregs, hpc, hcond, hrun, _, _⟩ := walk_keeps_core putspBytes Config.stringLap (s.reg .r0) s
    exact ⟨putspRoutine s, rfl, hregs, hpc, hcond, hrun, putspFrom_ends_or_laps (s.reg .r0) s⟩

end Sys2Proof.Proofs
end

section
/-! PROOFS. The image's words and their load (spec/70_reset_and_hazards.md R211, R212). Each lemma follows the recursion of
its definition: the words take two bytes at a time, the load one payload word at a time. -/

namespace Sys2Proof.Machine

/-! ## The words of the bytes -/

theorem length_imageWords : ∀ bytes : List Byte, (imageWords bytes).length = bytes.length / 2
  | [] => rfl
  | [_] => by simp [imageWords]
  | hi :: lo :: rest => by
    rw [imageWords, List.length_cons, length_imageWords rest, List.length_cons, List.length_cons]
    omega

/-- R211's `W[j]`: bytes 2j and 2j + 1, the first of them bits 15:8. -/
theorem imageWords_getElem? (bytes : List Byte) (j : Nat) (hi lo : Byte) (hhi : bytes[2 * j]? = some hi)
    (hlo : bytes[2 * j + 1]? = some lo) : (imageWords bytes)[j]? = some (hi ++ lo : BitVec 16) := by
  match bytes, j with
  | [], _ | [_], _ => cases hlo
  | _ :: _ :: _, 0 =>
    cases hhi
    cases hlo
    rfl
  | _ :: _ :: rest, j + 1 => exact imageWords_getElem? rest j hi lo hhi hlo

theorem toNat_append_bytes (hi lo : Byte) : (hi ++ lo : BitVec 16).toNat = hi.toNat * 256 + lo.toNat := by
  rw [BitVec.toNat_append, ← Nat.shiftLeft_add_eq_or_of_lt lo.isLt, Nat.shiftLeft_eq]

/-! ## The load -/

/-- The words placed from `start` on stand there in order, as far as there are addresses; every other word is as it was. -/
theorem placeWords_read (start : Nat) (ws : List Word) (m : Memory) (a : Word) :
    (placeWords start ws m).read a = if start ≤ a.toNat then ws.getD (a.toNat - start) (m.read a) else m.read a := by
  induction ws generalizing start m with
  | nil => simp [placeWords]
  | cons w ws ih =>
    rw [placeWords]
    split
    next hroom =>
      have hhere : a = BitVec.ofNat 16 start ↔ a.toNat = start := by
        rw [← BitVec.toNat_inj, BitVec.toNat_ofNat, Nat.mod_eq_of_lt hroom]
      rw [ih, Memory.read_write]
      obtain hbelow | hfirst | hlater := Nat.lt_trichotomy a.toNat start
      · rw [if_neg (by omega), if_neg (mt hhere.mp hbelow.ne), if_neg hbelow.not_ge]
      · rw [if_neg (by omega), if_pos (hhere.mpr hfirst), if_pos hfirst.ge, hfirst, Nat.sub_self, List.getD_cons_zero]
      · have hnext : a.toNat - start = a.toNat - (start + 1) + 1 := by omega
        rw [if_pos (Nat.succ_le_of_lt hlater), if_neg (mt hhere.mp hlater.ne'), if_pos hlater.le, hnext,
          List.getD_cons_succ]
    next hend =>
      rw [if_neg (by omega)]

theorem loadImage_of_imageWords_cons {bytes : List Byte} {origin : Word} {payload : List Word}
    (h : imageWords bytes = origin :: payload) :
    loadImage bytes = placeWords origin.toNat payload { cells := [] } := by
  rw [loadImage, h]

/-- The k-th payload word stands at the origin plus k, where that is an address. -/
theorem loadImage_read_payload {bytes : List Byte} {origin : Word} {payload : List Word}
    (himage : imageWords bytes = origin :: payload) {k : Nat} {w : Word} (hw : payload[k]? = some w)
    (hk : origin.toNat + k < 65536) : (loadImage bytes).read (origin + BitVec.ofNat 16 k) = w := by
  have haddr : (origin + BitVec.ofNat 16 k).toNat = origin.toNat + k := by
    rw [BitVec.toNat_add, BitVec.toNat_ofNat]
    omega
  rw [loadImage_of_imageWords_cons himage, placeWords_read, haddr, if_pos (Nat.le_add_right _ k), Nat.add_sub_cancel_left,
    List.getD_eq_getElem?_getD, hw, Option.getD_some]

end Sys2Proof.Machine

namespace Sys2Proof.Proofs

open Sys2Proof.Machine

/-- Settles O56: the words by the recursion on byte pairs, the payload's places by what a read of the load answers. -/
theorem imageWordsAreBigEndian : Obligations.ImageWordsAreBigEndian := by
  unfold Obligations.ImageWordsAreBigEndian
  intro bytes
  refine ⟨length_imageWords bytes, ?words, ?load⟩
  case words =>
    intro j hi lo hhi hlo
    exact ⟨(hi ++ lo : BitVec 16), imageWords_getElem? bytes j hi lo hhi hlo, toNat_append_bytes hi lo⟩
  case load =>
    intro origin payload himage
    have hcount : payload.length + 1 = bytes.length / 2 := by
      rw [← length_imageWords bytes, himage, List.length_cons]
    exact ⟨Nat.eq_sub_of_add_eq hcount, fun k w hw hk => loadImage_read_payload himage hw hk⟩

end Sys2Proof.Proofs
end

section
/-! PROOFS. The decoder and the encoder (spec/30_encoding.md R81 to R93). Both directions go by the fields that an instruction's
handler examines: a word that agrees with an encoding in them decodes to the instruction, and what a word decodes to has an
encoding that agrees with the word in them. Every statement about decoding is one of these two facts, or both together. -/

namespace Sys2Proof

/-! ## Words that agree in the examined bits -/

/-- The words differ in the bits `ignored` alone (30_encoding.md R86). -/
def AgreeOff (ignored x y : Word) : Prop :=
  (x ^^^ y) &&& ~~~ignored = 0

theorem agreeOff_iff (ignored x y : Word) :
    AgreeOff ignored x y ↔ ∀ k, k < 16 → ignored.getLsbD k = false → x.getLsbD k = y.getLsbD k := by
  constructor
  · intro h k hk hig
    have hbit : ((x ^^^ y) &&& ~~~ignored).getLsbD k = (0#16).getLsbD k := congrArg (BitVec.getLsbD · k) h
    rw [BitVec.getLsbD_and, BitVec.getLsbD_xor, BitVec.getLsbD_not, hig] at hbit
    simpa [-BitVec.getLsbD_eq_getElem, hk] using hbit
  · intro h
    apply BitVec.eq_of_getLsbD_eq
    intro k hk
    rw [BitVec.getLsbD_and, BitVec.getLsbD_xor, BitVec.getLsbD_not]
    cases hig : ignored.getLsbD k with
    | true => simp
    | false => simp [h k hk hig]

theorem AgreeOff.refl (ignored x : Word) : AgreeOff ignored x x := by
  simp [AgreeOff]

theorem AgreeOff.trans {ignored x y z : Word} (hxy : AgreeOff ignored x y) (hyz : AgreeOff ignored y z) :
    AgreeOff ignored x z := by
  rw [agreeOff_iff] at *
  exact fun k hk hig => (hxy k hk hig).trans (hyz k hk hig)

/-- A bit that is not ignored is the same in both words. -/
theorem AgreeOff.bitAt_eq {ignored x y : Word} (h : AgreeOff ignored x y) (p : Nat) (hp : p < 16)
    (hig : bitAt p ignored = false) : bitAt p y = bitAt p x :=
  ((agreeOff_iff ignored x y).mp h p hp hig).symm

/-- A field without an ignored bit is the same in both words. -/
theorem AgreeOff.field_eq {ignored x y : Word} (h : AgreeOff ignored x y) (width p : Nat) (hp : p + width ≤ 16)
    (hig : field width p ignored = 0) : field width p y = field width p x := by
  apply BitVec.eq_of_getLsbD_eq
  intro i hi
  have hclear : ignored.getLsbD (p + i) = false := by
    have hbit := field_getLsbD width p ignored i
    rw [hig] at hbit
    simpa [-BitVec.getLsbD_eq_getElem, hi] using hbit.symm
  rw [field_getLsbD, field_getLsbD, (agreeOff_iff ignored x y).mp h (p + i) (by omega) hclear]

/-- Two words agree when these fields of theirs do and every other bit is ignored. -/
theorem agreeOff_of_fields {ignored x y : Word} (fs : List (Nat × Nat))
    (hcover : ∀ k, k < 16 → ignored.getLsbD k = false → ∃ f ∈ fs, f.2 ≤ k ∧ k < f.2 + f.1)
    (h : ∀ f ∈ fs, field f.1 f.2 x = field f.1 f.2 y) : AgreeOff ignored x y := by
  rw [agreeOff_iff]
  intro k hk hig
  obtain ⟨⟨width, p⟩, hmem, hfrom, hto⟩ := hcover k hk hig
  have hx := field_getLsbD width p x (k - p)
  have hy := field_getLsbD width p y (k - p)
  have hin : k - p < width := by simp only at hfrom hto; omega
  rw [h _ hmem, hy] at hx
  simpa [-BitVec.getLsbD_eq_getElem, hin, Nat.add_sub_cancel' hfrom] using hx.symm

/-! ## Reading an encoding back -/

@[simp] theorem Reg.ofBits_seven : Reg.ofBits 7#3 = .r7 := rfl

/-- A word that agrees with an instruction's encoding in the bits its handler examines decodes to that instruction: every field
and every bit the decoder reads is the encoding's own. What is left is the choice between two names of one word, which
`wellFormed` decides. -/
theorem decode_of_agreeOff_encode (i : Instr) (hwf : i.wellFormed = true) (x : Word)
    (h : AgreeOff i.ignoredBits (encode i) x) : decode x = i := by
  cases i
  all_goals
    simp only [Instr.ignoredBits] at h
    simp (disch := decide) [decode, decodeBr, decodeAdd, decodeAnd, decodeJsr, decodeJmp, decodeTrap, regAt, h.field_eq,
      h.bitAt_eq, encode, opcodeField, field_or, bitAt_or, field_fieldAt_same, field_fieldAt_disjoint, bitAt_fieldAt]
  case br n z p offset9 =>
    intro hn hz
    simpa [Instr.wellFormed, hn, hz] using hwf
  case jmp baseR => simpa [Instr.wellFormed] using hwf
  case trap v =>
    simp only [Instr.wellFormed, isRoutineVector, Bool.not_eq_true', Bool.and_eq_false_iff,
      decide_eq_false_iff_not] at hwf
    split
    case h_7 => rfl
    all_goals omega

/-! ## Encoding what a word decodes to -/

/-- The fields, by width and lowest bit, that the instruction's handler examines (30_encoding.md R81, R86): all the bits
that `Instr.ignoredBits` leaves. -/
def Instr.examined : Instr → List (Nat × Nat)
  | .addReg _ _ _ | .andReg _ _ _ => [(4, 12), (3, 9), (3, 6), (1, 5), (3, 0)]
  | .addImm _ _ _ | .andImm _ _ _ => [(4, 12), (3, 9), (3, 6), (1, 5), (5, 0)]
  | .not _ _ => [(4, 12), (3, 9), (3, 6)]
  | .br _ _ _ _ | .nop _ => [(4, 12), (1, 11), (1, 10), (1, 9), (9, 0)]
  | .jmp _ | .ret => [(4, 12), (3, 6)]
  | .jsr _ => [(4, 12), (1, 11), (11, 0)]
  | .jsrr _ => [(4, 12), (1, 11), (3, 6)]
  | .ld _ _ | .ldi _ _ | .lea _ _ | .st _ _ | .sti _ _ => [(4, 12), (3, 9), (9, 0)]
  | .ldr _ _ _ | .str _ _ _ => [(4, 12), (3, 9), (3, 6), (6, 0)]
  | .trap _ | .getc | .out | .puts | .inEcho | .putsp | .halt => [(4, 12), (8, 0)]
  | .reserved8 | .reserved13 => [(4, 12)]

theorem Instr.examined_cover (i : Instr) (k : Nat) (hk : k < 16) (hig : i.ignoredBits.getLsbD k = false) :
    ∃ f ∈ i.examined, f.2 ≤ k ∧ k < f.2 + f.1 := by
  revert k
  cases i <;> simp only [Instr.ignoredBits, Instr.examined] <;> decide

/-- The encoding agrees with a word that has its examined fields. -/
theorem agreeOff_encode_of_fields {i : Instr} {w : Word}
    (h : ∀ f ∈ i.examined, field f.1 f.2 (encode i) = field f.1 f.2 w) : AgreeOff i.ignoredBits (encode i) w :=
  agreeOff_of_fields i.examined i.examined_cover h

theorem field_one_eq_bitAt (p : Nat) (x : Word) : field 1 p x = BitVec.ofBool (bitAt p x) := by
  apply BitVec.eq_of_getLsbD_eq
  intro i hi
  obtain rfl : i = 0 := by omega
  simp [field, bitAt]

@[simp] theorem toBits_regAt (p : Nat) (x : Word) : (regAt p x).toBits = field 3 p x :=
  Reg.toBits_ofBits _

/-- Encoding what a word decodes to gives the word back in the bits that were examined (R86): the opcode's number is the word's
own top field, and every operand was cut from the field it is laid back into. -/
theorem agreeOff_encode_decode (w : Word) : AgreeOff (decode w).ignoredBits (encode (decode w)) w := by
  have hop : Config.opcodeMap (opcodeOf (field 4 12 w)) = field 4 12 w := opcodeMap_opcodeOf _
  unfold decode
  generalize opcodeOf (field 4 12 w) = o at hop
  cases o
  case br =>
    simp only [decodeBr]
    split
    next =>
      apply agreeOff_encode_of_fields
      simp (disch := decide) [Instr.examined, encode, opcodeField, hop, field_or, field_fieldAt_same,
        field_fieldAt_disjoint, field_one_eq_bitAt]
    next hnone =>
      simp only [Bool.or_eq_true, not_or, Bool.not_eq_true] at hnone
      apply agreeOff_encode_of_fields
      simp (disch := decide) [Instr.examined, encode, opcodeField, hop, field_or, field_fieldAt_same,
        field_fieldAt_disjoint, field_one_eq_bitAt, hnone]
  case add | and | jsr =>
    simp only [decodeAdd, decodeAnd, decodeJsr]
    split
    all_goals
      apply agreeOff_encode_of_fields
      simp (disch := decide) [Instr.examined, encode, opcodeField, field_or, field_fieldAt_same,
        field_fieldAt_disjoint, field_one_eq_bitAt, *]
  case jmp =>
    simp only [decodeJmp]
    split
    next hret =>
      have hbase : field 3 6 w = 7#3 := (toBits_regAt 6 w).symm.trans (congrArg Reg.toBits hret)
      apply agreeOff_encode_of_fields
      simp (disch := decide) [Instr.examined, encode, opcodeField, hop, hbase, field_or, field_fieldAt_same,
        field_fieldAt_disjoint]
    next =>
      apply agreeOff_encode_of_fields
      simp (disch := decide) [Instr.examined, encode, opcodeField, hop, field_or, field_fieldAt_same,
        field_fieldAt_disjoint]
  case trap =>
    simp only [decodeTrap]
    split
    all_goals
      apply agreeOff_encode_of_fields
      simp (disch := decide) [Instr.examined, encode, opcodeField, field_or, field_fieldAt_same,
        field_fieldAt_disjoint, BitVec.toNat_eq, *]
  all_goals
    apply agreeOff_encode_of_fields
    simp (disch := decide) [Instr.examined, encode, opcodeField, hop, field_or, field_fieldAt_same,
      field_fieldAt_disjoint]

/-! ## The decoder's one name for a word -/

theorem wellFormed_decodeTrap (x : Word) : (decodeTrap x).wellFormed = true := by
  cases h : decodeTrap x with
  | trap v => simpa [Instr.wellFormed] using Machine.not_isRoutineVector_of_decodeTrap h
  | br | jmp =>
    unfold decodeTrap at h
    split at h <;> cases h
  | _ => rfl

theorem wellFormed_decode (x : Word) : (decode x).wellFormed = true := by
  unfold decode
  cases opcodeOf (field 4 12 x) with
  | br =>
    simp only [decodeBr]
    split
    next hflag => exact hflag
    next => rfl
  | jmp =>
    simp only [decodeJmp]
    split
    next => rfl
    next hbase => simpa [Instr.wellFormed] using hbase
  | add | and | jsr =>
    simp only [decodeAdd, decodeAnd, decodeJsr]
    split <;> rfl
  | trap => exact wellFormed_decodeTrap x
  | _ => rfl

/-! ## The opcode table's rows -/

/-- A mask without an ignored bit cuts the same from both words. -/
theorem AgreeOff.and_eq {ignored x y : Word} (h : AgreeOff ignored x y) {mask : Word} (hmask : mask &&& ignored = 0) :
    y &&& mask = x &&& mask := by
  apply BitVec.eq_of_getLsbD_eq
  intro k hk
  have hbit : (mask.getLsbD k && ignored.getLsbD k) = false := by
    rw [← BitVec.getLsbD_and, hmask]
    exact BitVec.getLsbD_zero
  rw [BitVec.getLsbD_and, BitVec.getLsbD_and]
  cases hm : mask.getLsbD k with
  | false => simp
  | true =>
    rw [hm, Bool.true_and] at hbit
    rw [(agreeOff_iff ignored x y).mp h k hk hbit]

theorem tableRow_mask_and_ignoredBits (i : Instr) : i.tableRow.1 &&& i.ignoredBits = 0 := by
  cases i <;> simp [Instr.tableRow, Instr.ignoredBits]

theorem encode_meets_tableRow (i : Instr) : encode i &&& i.tableRow.1 = i.tableRow.2 := by
  cases i
  exacts [Laws.FixedBits.addReg _ _ _, Laws.FixedBits.addImm _ _ _, Laws.FixedBits.andReg _ _ _,
    Laws.FixedBits.andImm _ _ _, Laws.FixedBits.not _ _, Laws.FixedBits.br _ _ _ _, Laws.FixedBits.jmp _,
    Laws.FixedBits.jsr _, Laws.FixedBits.jsrr _, Laws.FixedBits.ld _ _, Laws.FixedBits.ldi _ _, Laws.FixedBits.ldr _ _ _,
    Laws.FixedBits.lea _ _, Laws.FixedBits.st _ _, Laws.FixedBits.sti _ _, Laws.FixedBits.str _ _ _,
    Laws.FixedBits.trap _, Laws.FixedBits.reserved8, Laws.FixedBits.reserved13, Laws.FixedBits.getc,
    Laws.FixedBits.out, Laws.FixedBits.puts, Laws.FixedBits.inEcho, Laws.FixedBits.putsp, Laws.FixedBits.halt,
    Laws.FixedBits.ret, Laws.FixedBits.nop _]

end Sys2Proof

namespace Sys2Proof.Proofs

/-- Settles O1: an encoding agrees with itself. -/
theorem decodeOfEncodeIsIdentity : Obligations.DecodeOfEncodeIsIdentity := by
  unfold Obligations.DecodeOfEncodeIsIdentity
  intro i hwf
  exact decode_of_agreeOff_encode i hwf (encode i) (AgreeOff.refl _ _)

/-- Settles O2: the row's mask looks at examined bits alone, in which the word is the encoding, and the encoding meets the
row. -/
theorem everyWordMeetsItsTableRow : Obligations.EveryWordMeetsItsTableRow := by
  unfold Obligations.EveryWordMeetsItsTableRow
  intro w
  refine ⟨?row, wellFormed_decode w⟩
  case row =>
    rw [(agreeOff_encode_decode w).and_eq (tableRow_mask_and_ignoredBits (decode w))]
    exact encode_meets_tableRow (decode w)

/-- Settles O3: the fields a word's operands are cut from are the fields they are laid back into. -/
theorem encodeOfDecodeKeepsExaminedBits : Obligations.EncodeOfDecodeKeepsExaminedBits := by
  unfold Obligations.EncodeOfDecodeKeepsExaminedBits
  exact agreeOff_encode_decode

/-- Settles O4: the second word agrees with the first, and so with the encoding of what the first decodes to. -/
theorem ignoredBitsDoNotMatter : Obligations.IgnoredBitsDoNotMatter := by
  unfold Obligations.IgnoredBitsDoNotMatter
  intro w v hagree
  exact decode_of_agreeOff_encode (decode w) (wellFormed_decode w) v ((agreeOff_encode_decode w).trans hagree)

/-- Settles O5: each word is decoded. -/
theorem wordsDecodeAsTheFormatsDraw : Obligations.WordsDecodeAsTheFormatsDraw := by
  unfold Obligations.WordsDecodeAsTheFormatsDraw
  decide

end Sys2Proof.Proofs
end

section
/-! PROOFS. What every instruction and every step keeps (spec/10_state.md R27, R32, R36, R37; 20_memory.md R55). A meaning is a
chain of the shared operations, beside the one store of ST, STI and STR and the one clearing of `running` by HALT. So a
relation that each shared operation keeps is carried once over every instruction, step and run; each property of the whole
machine is one such relation. -/

namespace Sys2Proof.Machine

/-! ## Relations that the shared operations keep -/

/-- The relation holds from before to after each shared operation but the store, and along their chains. -/
structure OpsKeep (R : State → State → Prop) : Prop where
  refl : ∀ s, R s s
  trans : ∀ {s t u}, R s t → R t u → R s u
  setReg : ∀ r v s, R s (s.setReg r v)
  setPc : ∀ a s, R s (s.setPc a)
  setcc : ∀ r s, R s (setcc r s)
  emit : ∀ bs s, R s (s.emit bs)
  setBusy : ∀ b s, R s (s.setBusy b)
  askHost : ∀ s, R s (askHost s).2
  memRead : ∀ a s, R s (memRead a s).2

namespace OpsKeep

variable {R : State → State → Prop} (hR : OpsKeep R)
include hR

theorem defineReg (dr : Reg) (v : Word) (s : State) : R s (defineReg dr v s) :=
  hR.trans (hR.setReg dr v s) (hR.setcc dr _)

theorem loadFrom (dr : Reg) (ea : Word) (s : State) : R s (loadFrom dr ea s) :=
  hR.trans (hR.memRead ea s) (hR.defineReg dr _ _)

theorem branch (n z p : Bool) (offset9 : BitVec 9) (s : State) : R s (branch n z p offset9 s) := by
  unfold Machine.branch
  split
  next taken => exact hR.setPc _ s
  next notTaken => exact hR.refl s

theorem fetch (s : State) : R s (fetch s).2 :=
  hR.trans (hR.memRead s.pc s) (hR.setPc _ _)

theorem takeGetc (s : State) : R s (takeGetc s) := by
  cases hanswer : (Machine.askHost s).1 with
  | none =>
    rw [takeGetc_wait s hanswer]
    exact hR.trans (hR.askHost s) (hR.setBusy _ _)
  | some c =>
    rw [takeGetc_char s c hanswer]
    exact hR.trans (hR.askHost s) (hR.trans (hR.setReg _ _ _) (hR.setBusy _ _))

theorem takeInEcho (s : State) : R s (takeInEcho s) := by
  cases hanswer : (Machine.askHost s).1 with
  | none =>
    rw [takeInEcho_wait s hanswer]
    exact hR.trans (hR.askHost s) (hR.setBusy _ _)
  | some c =>
    rw [takeInEcho_char s c hanswer]
    exact hR.trans (hR.askHost s) (hR.trans (hR.emit _ _) (hR.trans (hR.setReg _ _ _) (hR.setBusy _ _)))

theorem walk (bytesOf : Word → List Byte) (fuel : Nat) (a : Word) (s : State) : R s (walk bytesOf fuel a s).2 :=
  walk_keeps (R s) bytesOf (fun b _ ht => hR.trans ht (hR.memRead b _)) (fun bs _ ht => hR.trans ht (hR.emit bs _))
    fuel a s (hR.refl s)

theorem putsFrom (a : Word) (s : State) : R s (putsFrom a s) :=
  hR.trans (hR.walk putsBytes Config.stringLap a s) (hR.setBusy _ _)

theorem putspFrom (a : Word) (s : State) : R s (putspFrom a s) :=
  hR.trans (hR.walk putspBytes Config.stringLap a s) (hR.setBusy _ _)

theorem resume (r : Routine) (s : State) : R s (resume r s) := by
  cases r with
  | getc => exact hR.takeGetc s
  | inEcho => exact hR.takeInEcho s
  | puts a => exact hR.putsFrom a s
  | putsp a => exact hR.putspFrom a s

end OpsKeep

/-! ## Trap vectors -/

/-- The six vectors of 43_trap.md R150, and every other one. -/
theorem trapVector_cases (v : BitVec 8) :
    v = 0x20#8 ∨ v = 0x21#8 ∨ v = 0x22#8 ∨ v = 0x23#8 ∨ v = 0x24#8 ∨ v = 0x25#8 ∨ isRoutineVector v = false := by
  simp only [BitVec.toNat_eq, isRoutineVector, Bool.and_eq_false_iff, decide_eq_false_iff_not, BitVec.toNat_ofNat]
  omega

/-! ## Every instruction -/

/-- HALT under one of its two names (43_trap.md R150, R157). -/
def IsHalt (i : Instr) : Prop :=
  i = .halt ∨ i = .trap 0x25#8

/-- Said once what an instruction can do: shared operations lead to a state, in which it ends, or to which it adds its one
store, or in which HALT clears `running`. -/
theorem OpsKeep.exec_cases {R : State → State → Prop} (hR : OpsKeep R) (i : Instr) (s : State) :
    ∃ u, R s u ∧ (exec i s = .next u ∨
      (∃ a v, storesTo i s = some a ∧ exec i s = .next (memWrite a v u)) ∨
      (IsHalt i ∧ exec i s = .next { u with running := false })) := by
  have hhalt : R s (s.emit Config.haltNotice) := hR.emit _ s
  have hin : R s (inEchoRoutine s) := hR.trans (hR.emit _ s) (hR.takeInEcho _)
  cases i with
  | addReg | addImm | andReg | andImm | not | lea => exact ⟨_, hR.defineReg _ _ s, .inl rfl⟩
  | ld | ldr => exact ⟨_, hR.loadFrom _ _ s, .inl rfl⟩
  | ldi dr offset9 => exact ⟨_, hR.trans (hR.memRead _ s) (hR.loadFrom dr _ _), .inl rfl⟩
  | st | str => exact ⟨s, hR.refl s, .inr (.inl ⟨_, _, rfl, rfl⟩)⟩
  | sti sr offset9 => exact ⟨_, hR.memRead _ s, .inr (.inl ⟨_, _, rfl, rfl⟩)⟩
  | br | nop => exact ⟨_, hR.branch _ _ _ _ s, .inl rfl⟩
  | jmp | ret => exact ⟨_, hR.setPc _ s, .inl rfl⟩
  | jsr | jsrr => exact ⟨_, hR.trans (hR.setReg .r7 s.pc s) (hR.setPc _ _), .inl rfl⟩
  | reserved8 | reserved13 => exact ⟨s, hR.refl s, .inl rfl⟩
  | getc => exact ⟨_, hR.takeGetc s, .inl rfl⟩
  | out => exact ⟨_, hR.emit _ s, .inl rfl⟩
  | puts => exact ⟨_, hR.putsFrom _ s, .inl rfl⟩
  | inEcho => exact ⟨_, hin, .inl rfl⟩
  | putsp => exact ⟨_, hR.putspFrom _ s, .inl rfl⟩
  | halt => exact ⟨_, hhalt, .inr (.inr ⟨.inl rfl, rfl⟩)⟩
  | trap v =>
    obtain rfl | rfl | rfl | rfl | rfl | rfl | hother := trapVector_cases v
    · exact ⟨_, hR.takeGetc s, .inl rfl⟩
    · exact ⟨_, hR.emit _ s, .inl rfl⟩
    · exact ⟨_, hR.putsFrom _ s, .inl rfl⟩
    · exact ⟨_, hin, .inl rfl⟩
    · exact ⟨_, hR.putspFrom _ s, .inl rfl⟩
    · exact ⟨_, hhalt, .inr (.inr ⟨.inr rfl, rfl⟩)⟩
    · exact ⟨s, hR.refl s, .inl (exec_trap_unknown hother s)⟩

/-- The relation holds over every operation there is, the store and HALT's clearing of `running` included. -/
structure AllOpsKeep (R : State → State → Prop) : Prop extends OpsKeep R where
  memWrite : ∀ a v s, R s (memWrite a v s)
  stop : ∀ s : State, R s { s with running := false }

/-! ## Every step and every run -/

theorem step_halted (s : State) (h : s.running = false) : step s = .next s := by
  rw [step, if_pos h]

/-- Said once what a step that answers a next state can do (R30, R32, R33). -/
theorem step_cases {s t : State} (h : step s = .next t) :
    (s.running = false ∧ t = s) ∨
    (s.running = true ∧ ∃ r, s.busy = some r ∧ t = resume r s) ∨
    (s.running = true ∧ s.busy = none ∧ exec (decode (fetch s).1) (fetch s).2 = .next t) := by
  unfold step at h
  split at h
  next hhalted => exact .inl ⟨hhalted, by cases h; rfl⟩
  next hrun =>
    have hrun : s.running = true := by simpa using hrun
    split at h
    next => cases h
    next =>
      split at h
      next r hbusy => exact .inr (.inl ⟨hrun, r, hbusy, by cases h; rfl⟩)
      next hbusy => exact .inr (.inr ⟨hrun, hbusy, h⟩)

theorem run_succ_eq_next {M : Host.Core} {k : Nat} {s t : M.State} (h : M.run (k + 1) s = .next t) :
    ∃ u, M.step s = .next u ∧ M.run k u = .next t := by
  unfold Host.Core.run at h
  split at h
  next u hstep => exact ⟨u, hstep, h⟩
  next => cases h
  next => cases h

namespace AllOpsKeep

variable {R : State → State → Prop} (hR : AllOpsKeep R)
include hR

theorem exec {i : Instr} {s t : State} (h : exec i s = .next t) : R s t := by
  obtain ⟨u, hu, hplain | ⟨a, v, _, hstore⟩ | ⟨_, hhalt⟩⟩ := hR.exec_cases i s
  · cases hplain.symm.trans h
    exact hu
  · cases hstore.symm.trans h
    exact hR.trans hu (hR.memWrite a v u)
  · cases hhalt.symm.trans h
    exact hR.trans hu (hR.stop u)

theorem step {s t : State} (h : step s = .next t) : R s t := by
  obtain ⟨_, rfl⟩ | ⟨_, r, _, rfl⟩ | ⟨_, _, hexec⟩ := step_cases h
  · exact hR.refl t
  · exact hR.resume r s
  · exact hR.trans (hR.fetch s) (hR.exec hexec)

theorem run {k : Nat} {s t : State} (h : core.run k s = .next t) : R s t := by
  induction k generalizing s with
  | zero =>
    cases h
    exact hR.refl _
  | succ k ih =>
    obtain ⟨u, hstep, hrun⟩ := run_succ_eq_next h
    exact hR.trans (hR.step hstep) (ih hrun)

end AllOpsKeep

/-! ## The relations themselves -/

theorem allOpsKeep_abort : AllOpsKeep fun s t => t.abortRequested = s.abortRequested where
  refl _ := rfl
  trans hst htu := htu.trans hst
  setReg _ _ _ := rfl
  setPc _ _ := rfl
  setcc _ _ := rfl
  emit _ _ := rfl
  setBusy _ _ := rfl
  askHost := askHost_abortRequested
  memRead := memRead_abortRequested
  memWrite _ _ _ := rfl
  stop _ := rfl

/-- What was written stays written, in order. -/
theorem allOpsKeep_output : AllOpsKeep fun s t => s.output <+: t.output where
  refl _ := List.prefix_rfl
  trans := List.IsPrefix.trans
  setReg _ _ _ := List.prefix_rfl
  setPc _ _ := List.prefix_rfl
  setcc _ _ := List.prefix_rfl
  emit bs s := List.prefix_append s.output bs
  setBusy _ _ := List.prefix_rfl
  askHost s := by rw [askHost_output]
  memRead a s := by rw [memRead_output]
  memWrite _ _ _ := List.prefix_rfl
  stop _ := List.prefix_rfl

theorem allOpsKeep_wf : AllOpsKeep fun s t => s.mem.wf = true → t.mem.wf = true where
  refl _ := id
  trans hst htu := htu ∘ hst
  setReg _ _ _ := id
  setPc _ _ := id
  setcc _ _ := id
  emit _ _ := id
  setBusy _ _ := id
  askHost s := by rw [askHost_mem]; exact id
  memRead := memRead_keeps_wf
  memWrite := memWrite_keeps_wf
  stop _ := id

theorem opsKeep_running : OpsKeep fun s t => t.running = s.running where
  refl _ := rfl
  trans hst htu := htu.trans hst
  setReg _ _ _ := rfl
  setPc _ _ := rfl
  setcc _ _ := rfl
  emit _ _ := rfl
  setBusy _ _ := rfl
  askHost := askHost_running
  memRead := memRead_running

/-! ## Who clears `running` -/

theorem exec_of_isHalt {i : Instr} (hi : IsHalt i) (s : State) : exec i s = .next (haltRoutine s) := by
  obtain rfl | rfl := hi <;> rfl

/-- R27: no instruction but HALT writes `running`. -/
theorem exec_running_of_not_isHalt {i : Instr} {s t : State} (hi : ¬IsHalt i) (h : exec i s = .next t) :
    t.running = s.running := by
  obtain ⟨u, hu, hplain | ⟨a, v, _, hstore⟩ | ⟨hhalt, _⟩⟩ := opsKeep_running.exec_cases i s
  · cases hplain.symm.trans h
    exact hu
  · cases hstore.symm.trans h
    exact hu
  · exact absurd hhalt hi

/-- The decoder names HALT by its own name alone (log entry 25). -/
theorem decode_eq_halt_of_isHalt {x : Word} (h : IsHalt (decode x)) : decode x = .halt := by
  obtain hhalt | htrap := h
  · exact hhalt
  · exact absurd (not_isRoutineVector_of_decode htrap) (by decide)

/-- A step that stops the machine is that of HALT. -/
theorem step_that_stops {s t : State} (h : step s = .next t) (hrun : s.running = true) (hstopped : t.running = false) :
    s.busy = none ∧ decode (fetch s).1 = .halt ∧ t = haltRoutine (fetch s).2 := by
  obtain ⟨hhalted, _⟩ | ⟨_, r, _, rfl⟩ | ⟨_, hbusy, hexec⟩ := step_cases h
  · exact absurd (hrun.symm.trans hhalted) (by decide)
  · exact absurd (hstopped.symm.trans ((opsKeep_running.resume r s).trans hrun)) (by decide)
  · have hishalt : IsHalt (decode (fetch s).1) := by
      by_contra hother
      have hkept := (exec_running_of_not_isHalt hother hexec).trans ((opsKeep_running.fetch s).trans hrun)
      exact absurd (hstopped.symm.trans hkept) (by decide)
    rw [exec_of_isHalt hishalt] at hexec
    cases hexec
    exact ⟨hbusy, decode_eq_halt_of_isHalt hishalt, rfl⟩

end Sys2Proof.Machine

namespace Sys2Proof.Proofs

open Sys2Proof.Machine

/-- Settles O51: every operation keeps the canonical form, and the step that stops the machine is HALT's, whose fetch found
no unfinished routine. -/
theorem stepKeepsTheInvariant : Obligations.StepKeepsTheInvariant := by
  unfold Obligations.StepKeepsTheInvariant
  rintro s t ⟨hwf, hidle⟩ hstep
  refine ⟨allOpsKeep_wf.step hstep hwf, ?idle⟩
  case idle =>
    intro hstopped
    cases hrun : s.running with
    | false =>
      cases (step_halted s hrun).symm.trans hstep
      exact hidle hrun
    | true =>
      obtain ⟨hbusy, _, rfl⟩ := step_that_stops hstep hrun hstopped
      exact (memRead_busy s.pc s).trans hbusy

/-- Settles O54: every operation leaves the old output at the beginning of the new. -/
theorem outputOnlyGrowsAtItsEnd : Obligations.OutputOnlyGrowsAtItsEnd := by
  unfold Obligations.OutputOnlyGrowsAtItsEnd
  intro k s t hrun
  obtain ⟨bytes, hbytes⟩ := allOpsKeep_output.run hrun
  exact ⟨bytes, hbytes.symm⟩

/-- Settles O60: no operation writes the flag. -/
theorem onlyTheHostRaisesTheAbort : Obligations.OnlyTheHostRaisesTheAbort := by
  unfold Obligations.OnlyTheHostRaisesTheAbort
  exact ⟨fun _ _ _ => allOpsKeep_abort.exec, fun _ _ => allOpsKeep_abort.step⟩

/-- Settles O49: HALT by its meaning, every other instruction by the operations it is made of. -/
theorem onlyHaltClearsRunning : Obligations.OnlyHaltClearsRunning := by
  unfold Obligations.OnlyHaltClearsRunning
  intro i s t hexec
  constructor
  · intro hhalt
    rw [exec_of_isHalt hhalt] at hexec
    cases hexec
    rfl
  · intro hne hne'
    exact exec_running_of_not_isHalt (not_or.mpr ⟨hne, hne'⟩) hexec

/-- Settles O50: a halted machine's step answers its own state, and a step that stops a running machine is HALT's. -/
theorem runningIsClearedOnlyByFetchingHalt : Obligations.RunningIsClearedOnlyByFetchingHalt := by
  unfold Obligations.RunningIsClearedOnlyByFetchingHalt
  intro s t hstep
  constructor
  · intro hhalted
    cases (step_halted s hhalted).symm.trans hstep
    exact hhalted
  · intro hrun hstopped
    obtain ⟨hbusy, hhalt, _⟩ := step_that_stops hstep hrun hstopped
    exact ⟨hbusy, hhalt⟩

end Sys2Proof.Proofs
end

section
/-! PROOFS. Addresses, control transfers, and the frame of every instruction (spec/00_scope.md R9, 41_control.md, 10_state.md R21,
R23, R26). One case analysis over the instructions says what registers, `pc` and flag an instruction leaves; the statements
about them are its parts. -/

namespace Sys2Proof.Machine

/-! ## Signed sums -/

theorem toNat_addSigned (base : Word) (offset : Int) :
    ((addSigned base offset).toNat : Int) = (base.toNat + offset) % 65536 := by
  rw [addSigned, BitVec.toNat_ofInt]
  omega

/-- Adding an extended offset is the signed sum, at every width. -/
theorem add_sext {n : Nat} (base : Word) (offset : BitVec n) : base + sext offset = addSigned base offset.toInt := by
  rw [addSigned, BitVec.ofInt_add, BitVec.ofInt_natCast, BitVec.ofNat_toNat, BitVec.setWidth_eq]
  rfl

theorem pcRelative_eq {n : Nat} (offset : BitVec n) (s : State) : pcRelative offset s = addSigned s.pc offset.toInt :=
  add_sext s.pc offset

theorem basePlusOffset_eq (baseR : Reg) (offset6 : BitVec 6) (s : State) :
    basePlusOffset baseR offset6 s = addSigned (s.reg baseR) offset6.toInt :=
  add_sext (s.reg baseR) offset6

/-! ## Registers kept -/

theorem RegsKeptBut.of_regs_eq {s t : State} (ds : List Reg) (h : t.regs = s.regs) : RegsKeptBut ds s t :=
  fun r _ => congrArg (RegFile.get · r) h

theorem RegsKeptBut.trans {ds : List Reg} {s t u : State} (hst : RegsKeptBut ds s t) (htu : RegsKeptBut ds t u) :
    RegsKeptBut ds s u :=
  fun r hr => (htu r hr).trans (hst r hr)

theorem defineReg_regsKeptBut (dr : Reg) (v : Word) (s : State) : RegsKeptBut [dr] s (defineReg dr v s) :=
  setReg_regsKeptBut dr v s

theorem loadFrom_regsKeptBut (dr : Reg) (ea : Word) (s : State) : RegsKeptBut [dr] s (loadFrom dr ea s) :=
  (RegsKeptBut.of_regs_eq [dr] (memRead_regs ea s)).trans (defineReg_regsKeptBut dr _ _)

@[simp] theorem loadFrom_pc (dr : Reg) (ea : Word) (s : State) : (loadFrom dr ea s).pc = s.pc :=
  memRead_pc ea s

/-! ## Control transfers -/

theorem setPc_onlyTransfers (target : Word) (s : State) : OnlyTransfers [] s (s.setPc target) :=
  ⟨fun _ _ => rfl, rfl, fun _ _ => rfl, setPc_lifeKept target s, rfl, rfl, rfl⟩

theorem link_setPc_onlyTransfers (target : Word) (s : State) : OnlyTransfers [.r7] s ((link s).setPc target) :=
  ⟨setReg_regsKeptBut .r7 s.pc s, rfl, fun _ _ => rfl, setReg_lifeKept .r7 s.pc s, rfl, rfl, rfl⟩

@[simp] theorem link_r7 (s : State) : (link s).reg .r7 = s.pc :=
  State.setReg_reg_same s .r7 s.pc

theorem link_reg_other (s : State) {r : Reg} (h : r ≠ .r7) : (link s).reg r = s.reg r :=
  State.setReg_reg_other s .r7 r s.pc h

/-- R88, R120: the flag that holds is among the requested. -/
theorem flagRequested_iff (n z p : Bool) (c : Cond) :
    flagRequested n z p c = true ↔ (n = true ∧ c = .n) ∨ (z = true ∧ c = .z) ∨ (p = true ∧ c = .p) := by
  cases c <;> simp [flagRequested]

theorem branch_onlyTransfers (n z p : Bool) (offset9 : BitVec 9) (s : State) :
    OnlyTransfers [] s (branch n z p offset9 s) := by
  unfold branch
  split
  next taken => exact setPc_onlyTransfers _ s
  next notTaken => exact ⟨fun _ _ => rfl, rfl, fun _ _ => rfl, LifeKept.refl s, rfl, rfl, rfl⟩

theorem branch_pc (n z p : Bool) (offset9 : BitVec 9) (s : State) :
    (branch n z p offset9 s).pc = pcAfter (.br n z p offset9) s := by
  rw [branch]
  simp only [flagRequested_iff, pcAfter, ← pcRelative_eq]
  split <;> rfl

/-- NOP requests no flag, so it is never taken. -/
theorem branch_none (offset9 : BitVec 9) (s : State) : branch false false false offset9 s = s := by
  unfold branch flagRequested
  cases s.cond <;> rfl

/-! ## Every instruction's registers, `pc` and flag -/

/-- What an instruction leaves of the registers, `pc` and the flag: the columns of 10_state.md R21, R23 and R26. -/
def FrameOf (i : Instr) (s t : State) : Prop :=
  RegsKeptBut (writesOf i) s t ∧ t.pc = pcAfter i s ∧ (definesOf i = none → t.cond = s.cond)

/-- The frame of the routines: but the registers named, registers stay, and so do `pc` and the flag (43_trap.md R151). -/
def RoutineKeeps (ds : List Reg) (s t : State) : Prop :=
  RegsKeptBut ds s t ∧ t.pc = s.pc ∧ t.cond = s.cond

theorem CharReadKeeps.routineKeeps {s t : State} (h : CharReadKeeps s t) : RoutineKeeps [.r0] s t := by
  obtain ⟨hregs, hcond, hpc, _⟩ := h
  exact ⟨hregs, hpc, hcond⟩

theorem putsRoutine_routineKeeps (s : State) : RoutineKeeps [] s (putsRoutine s) := by
  obtain ⟨hregs, hpc, hcond, _⟩ := walk_keeps_core putsBytes Config.stringLap (s.reg .r0) s
  exact ⟨.of_regs_eq [] hregs, hpc, hcond⟩

theorem putspRoutine_routineKeeps (s : State) : RoutineKeeps [] s (putspRoutine s) := by
  obtain ⟨hregs, hpc, hcond, _⟩ := walk_keeps_core putspBytes Config.stringLap (s.reg .r0) s
  exact ⟨.of_regs_eq [] hregs, hpc, hcond⟩

theorem RoutineKeeps.frameOf {i : Instr} {ds : List Reg} {s t : State} (h : RoutineKeeps ds s t)
    (hwrites : writesOf i = ds) (hnext : pcAfter i s = s.pc) : FrameOf i s t := by
  obtain ⟨hregs, hpc, hcond⟩ := h
  exact ⟨hwrites ▸ hregs, hpc.trans hnext.symm, fun _ => hcond⟩

/-- Every instruction answers a next state, with this frame. -/
theorem exec_frame (i : Instr) (s : State) : ∃ t, exec i s = .next t ∧ FrameOf i s t := by
  have hgetc := (takeGetc_charReadKeeps s).routineKeeps
  have hin := (inEchoRoutine_charReadKeeps s).routineKeeps
  have hout : RoutineKeeps [] s (outRoutine s) := ⟨fun _ _ => rfl, rfl, rfl⟩
  have hhalt : RoutineKeeps [] s (haltRoutine s) := ⟨fun _ _ => rfl, rfl, rfl⟩
  cases i with
  | addReg | addImm | andReg | andImm | not | lea => exact ⟨_, rfl, defineReg_regsKeptBut _ _ s, rfl, nofun⟩
  | ld | ldr => exact ⟨_, rfl, loadFrom_regsKeptBut _ _ s, loadFrom_pc _ _ s, nofun⟩
  | ldi dr offset9 =>
    refine ⟨_, rfl, ?_, (loadFrom_pc dr _ _).trans (memRead_pc _ s), nofun⟩
    exact (RegsKeptBut.of_regs_eq [dr] (memRead_regs _ s)).trans (loadFrom_regsKeptBut dr _ _)
  | st | str => exact ⟨_, rfl, memWrite_regsKept _ _ s, rfl, fun _ => rfl⟩
  | sti sr offset9 =>
    exact ⟨_, rfl, .of_regs_eq [] (memRead_regs _ s), memRead_pc _ s, fun _ => memRead_cond _ s⟩
  | br n z p offset9 =>
    obtain ⟨hregs, hcond, _⟩ := branch_onlyTransfers n z p offset9 s
    exact ⟨_, rfl, hregs, branch_pc n z p offset9 s, fun _ => hcond⟩
  | nop offset9 =>
    exact ⟨s, congrArg Host.Outcome.next (branch_none offset9 s), fun _ _ => rfl, rfl, fun _ => rfl⟩
  | jmp | ret => exact ⟨_, rfl, fun _ _ => rfl, rfl, fun _ => rfl⟩
  | jsr offset11 => exact ⟨_, rfl, setReg_regsKeptBut .r7 s.pc s, pcRelative_eq offset11 s, fun _ => rfl⟩
  | jsrr baseR =>
    refine ⟨_, rfl, setReg_regsKeptBut .r7 s.pc s, ?_, fun _ => rfl⟩
    change (link s).reg baseR = if baseR = .r7 then s.pc else s.reg baseR
    split
    next hr7 => rw [hr7, link_r7]
    next hother => exact link_reg_other s hother
  | reserved8 | reserved13 => exact ⟨s, rfl, fun _ _ => rfl, rfl, fun _ => rfl⟩
  | getc => exact ⟨_, rfl, hgetc.frameOf rfl rfl⟩
  | out => exact ⟨_, rfl, hout.frameOf rfl rfl⟩
  | puts => exact ⟨_, rfl, (putsRoutine_routineKeeps s).frameOf rfl rfl⟩
  | inEcho => exact ⟨_, rfl, hin.frameOf rfl rfl⟩
  | putsp => exact ⟨_, rfl, (putspRoutine_routineKeeps s).frameOf rfl rfl⟩
  | halt => exact ⟨_, rfl, hhalt.frameOf rfl rfl⟩
  | trap v =>
    obtain rfl | rfl | rfl | rfl | rfl | rfl | hother := trapVector_cases v
    · exact ⟨_, rfl, hgetc.frameOf rfl rfl⟩
    · exact ⟨_, rfl, hout.frameOf rfl rfl⟩
    · exact ⟨_, rfl, (putsRoutine_routineKeeps s).frameOf rfl rfl⟩
    · exact ⟨_, rfl, hin.frameOf rfl rfl⟩
    · exact ⟨_, rfl, (putspRoutine_routineKeeps s).frameOf rfl rfl⟩
    · exact ⟨_, rfl, hhalt.frameOf rfl rfl⟩
    · exact ⟨s, exec_trap_unknown hother s, fun _ _ => rfl, rfl, fun _ => rfl⟩

/-- R180: a step answers a next state, or the host's abort ends the run. -/
theorem safeStep (s : State) : SafeStep s := by
  unfold SafeStep step
  split
  next => exact .inl ⟨s, rfl⟩
  next =>
    split
    next hfalls =>
      obtain ⟨habort, _⟩ := hfalls
      exact .inr ⟨habort, rfl⟩
    next =>
      split
      next r _ => exact .inl ⟨resume r s, rfl⟩
      next =>
        obtain ⟨t, hexec, _⟩ := exec_frame (decode (fetch s).1) (fetch s).2
        exact .inl ⟨t, hexec⟩

end Sys2Proof.Machine

namespace Sys2Proof.Proofs

open Sys2Proof.Machine

/-- Settles O13: each form adds an extended offset. -/
theorem addressFormsAreSignedSums : Obligations.AddressFormsAreSignedSums := by
  unfold Obligations.AddressFormsAreSignedSums
  intro s
  refine ⟨fun o => ?_, fun o => ?_, fun b o => ?_, fun o => rfl⟩
  · rw [pcRelative_eq, toNat_addSigned]
  · rw [pcRelative_eq, toNat_addSigned]
  · rw [basePlusOffset_eq, toNat_addSigned]

/-- Settles O25: the frame's `pc`. -/
theorem pcAfterEveryInstruction : Obligations.PcAfterEveryInstruction := by
  unfold Obligations.PcAfterEveryInstruction
  intro i s
  obtain ⟨t, hexec, _, hpc, _⟩ := exec_frame i s
  exact ⟨t, hexec, hpc⟩

/-- Settles O37: the frame's registers. -/
theorem onlyTheMatrixsRegistersAreWritten : Obligations.OnlyTheMatrixsRegistersAreWritten := by
  unfold Obligations.OnlyTheMatrixsRegistersAreWritten
  intro i s
  obtain ⟨t, hexec, hregs, _⟩ := exec_frame i s
  exact ⟨t, hexec, hregs⟩

/-- Settles O11: every instruction has a next state, so a step lacks one only where the abort falls. -/
theorem noSynchronousException : Obligations.NoSynchronousException := by
  unfold Obligations.NoSynchronousException
  refine ⟨fun i s => ?_, safeStep, rfl⟩
  obtain ⟨t, hexec, _⟩ := exec_frame i s
  exact ⟨t, hexec⟩

/-- Settles O19: a branch is taken by the `pc` of R23's table. -/
theorem branchIsTakenWhenARequestedFlagHolds : Obligations.BranchIsTakenWhenARequestedFlagHolds := by
  unfold Obligations.BranchIsTakenWhenARequestedFlagHolds
  intro n z p o s
  refine ⟨branch n z p o s, rfl, branch_onlyTransfers n z p o s, ?taken, ?notTaken⟩
  case taken =>
    intro hflag
    rw [branch_pc, pcAfter, if_pos hflag, toNat_addSigned]
  case notTaken =>
    intro hflag
    rw [branch_pc, pcAfter, if_neg hflag]

/-- Settles O20: both write `pc` alone. -/
theorem jumpGoesToTheRegister : Obligations.JumpGoesToTheRegister := by
  unfold Obligations.JumpGoesToTheRegister
  intro b s
  exact ⟨⟨jumpTo b s, rfl, rfl, setPc_onlyTransfers _ s⟩, ⟨jumpTo .r7 s, rfl, rfl, setPc_onlyTransfers _ s⟩, rfl⟩

/-- Settles O21: the link, and then the PC-relative target. -/
theorem callLinksAndGoesPcRelative : Obligations.CallLinksAndGoesPcRelative := by
  unfold Obligations.CallLinksAndGoesPcRelative
  intro o s
  refine ⟨(link s).setPc (pcRelative o s), rfl, link_r7 s, ?_, link_setPc_onlyTransfers _ s⟩
  rw [State.setPc_pc, pcRelative_eq, toNat_addSigned]

/-- Settles O22: the base is read in the state that the link left. -/
theorem callThroughRegisterLinksFirst : Obligations.CallThroughRegisterLinksFirst := by
  unfold Obligations.CallThroughRegisterLinksFirst
  intro b s
  refine ⟨jumpTo b (link s), rfl, link_r7 s, link_setPc_onlyTransfers _ s, fun hb => link_reg_other s hb, ?_⟩
  rintro rfl
  exact link_r7 s

/-- Settles O23: NOP requests no flag, and an unknown vector selects no routine. -/
theorem noOpsChangeNothing : Obligations.NoOpsChangeNothing := by
  unfold Obligations.NoOpsChangeNothing
  intro s
  refine ⟨rfl, rfl, fun o => ⟨congrArg Host.Outcome.next (branch_none o s), rfl⟩, fun v hv => exec_trap_unknown ?_ s⟩
  simp only [isRoutineVector, Bool.and_eq_false_iff, decide_eq_false_iff_not]
  omega

end Sys2Proof.Proofs
end

section
/-! PROOFS. The value-defining instructions and the stores (spec/40_operate.md, 42_load_store.md, 20_memory.md R55, R61, R64,
R66). Each instruction defines its DR in the state its read left, or stores one word there; its effect is that of
`defineReg`, of one `loadFrom` or of one `memWrite`, after what the pointer's read keeps. -/

namespace Sys2Proof.Machine

/-! ## Words kept -/

theorem WordsKeptBut.trans {as : List Word} {s t u : State} (hst : WordsKeptBut as s t) (htu : WordsKeptBut as t u) :
    WordsKeptBut as s u :=
  fun a ha => (htu a ha).trans (hst a ha)

theorem WordsKeptBut.mono {as bs : List Word} {s t : State} (h : WordsKeptBut as s t) (hsub : as ⊆ bs) :
    WordsKeptBut bs s t :=
  fun a ha => h a fun hmem => ha (hsub hmem)

/-! ## Values defined from registers -/

theorem defineReg_onlyDefines (dr : Reg) (v : Word) (s : State) : OnlyDefines dr s (defineReg dr v s) :=
  ⟨flagSays_defineReg dr v s, defineReg_regsKeptBut dr v s, rfl, fun _ _ => rfl, defineReg_lifeKept dr v s, rfl, rfl, rfl⟩

/-- The bits of an extended 5-bit immediate: its own up to bit 4, and bit 4 from there on (00_scope.md R10). -/
theorem getLsbD_sext_imm5 (imm5 : BitVec 5) (k : Nat) (hk : k < 16) :
    (sext imm5).getLsbD k = imm5.getLsbD (min k 4) := by
  rw [getLsbD_sext]
  split
  next hlow => simp [hk, Nat.min_eq_left (Nat.le_of_lt_succ hlow)]
  next hhigh =>
    rw [Nat.min_eq_right (by omega), BitVec.msb_eq_getLsbD_last]
    simp [hk]

theorem getLsbD_and_sext_imm5 (w : Word) (imm5 : BitVec 5) (k : Nat) :
    (w &&& sext imm5).getLsbD k = (w.getLsbD k && imm5.getLsbD (min k 4)) := by
  rw [BitVec.getLsbD_and]
  by_cases hk : k < 16
  · rw [getLsbD_sext_imm5 imm5 k hk]
  · rw [BitVec.getLsbD_of_ge w k (by omega), Bool.false_and, Bool.false_and]

/-! ## Loads -/

/-- The whole of a load's effect, its address `ea` given (42_load_store.md R130 to R132). -/
def LoadsWord (dr : Reg) (ea : Word) (s t : State) : Prop :=
  t.reg dr = (memRead ea s).1 ∧ FlagSays t.cond (t.reg dr) ∧ RegsKeptBut [dr] s t ∧ t.pc = s.pc ∧ LifeKept s t ∧
    HostKept (memRead ea s).2 t ∧ WordsKeptBut [] (memRead ea s).2 t ∧ WordsKeptBut (touchedByRead ea) s t

theorem loadFrom_loadsWord (dr : Reg) (ea : Word) (s : State) : LoadsWord dr ea s (loadFrom dr ea s) :=
  ⟨defineReg_reg_same dr _ _, flagSays_defineReg dr _ _, loadFrom_regsKeptBut dr ea s, loadFrom_pc dr ea s,
    loadFrom_lifeKept dr ea s, ⟨rfl, rfl, rfl⟩, fun _ _ => rfl, memRead_wordsKeptBut ea s⟩

/-- Away from the keyboard status address a load is the definition from the stored word. -/
theorem loadFrom_plain (dr : Reg) (ea : Word) (s : State) (h : ea ≠ Config.kbsrAddr) :
    loadFrom dr ea s = defineReg dr (s.mem.read ea) s := by
  rw [loadFrom, memRead_plain ea s h]

theorem indirect_plain (offset9 : BitVec 9) (s : State) (h : pcRelative offset9 s ≠ Config.kbsrAddr) :
    indirect offset9 s = (s.mem.read (pcRelative offset9 s), s) :=
  memRead_plain _ s h

/-! ## Stores -/

/-- The whole of a store's effect, its address `a` and word `v` given (42_load_store.md R134, R136). -/
def StoresWord (a v : Word) (s t : State) : Prop :=
  t.mem.read a = v ∧ WordsKeptBut [a] s t ∧ RegsKeptBut [] s t ∧ t.pc = s.pc ∧ t.cond = s.cond ∧ LifeKept s t ∧ HostKept s t

theorem memWrite_storesWord (a v : Word) (s : State) : StoresWord a v s (memWrite a v s) :=
  ⟨memWrite_read_same a v s, memWrite_wordsKeptBut a v s, memWrite_regsKept a v s, rfl, rfl, memWrite_lifeKept a v s,
    memWrite_hostKept a v s⟩

/-- A storing instruction adds its store to a state that at most a pointer read has changed. -/
theorem exec_of_storesTo {i : Instr} {sr : Reg} {a : Word} {s : State} (haddr : storesTo i s = some a)
    (hreg : storedRegister i = some sr) :
    ∃ u, exec i s = .next (memWrite a (s.reg sr) u) ∧ LifeKept s u ∧ u.pc = s.pc ∧
      u.abortRequested = s.abortRequested := by
  cases i with
  | st | str =>
    cases haddr
    cases hreg
    exact ⟨s, rfl, LifeKept.refl s, rfl, rfl⟩
  | sti sr' offset9 =>
    cases haddr
    cases hreg
    refine ⟨(indirect offset9 s).2, ?_, memRead_lifeKept _ s, memRead_pc _ s, memRead_abortRequested _ s⟩
    rw [← memRead_reg (pcRelative offset9 s) s sr]
    rfl
  | addReg | addImm | andReg | andImm | not | lea | ld | ldi | ldr => cases haddr
  | br | nop | jmp | ret | jsr | jsrr | reserved8 | reserved13 => cases haddr
  | trap | getc | out | puts | inEcho | putsp | halt => cases haddr

/-- R30 away from the keyboard status address: the step executes the stored word. -/
theorem step_plain (s : State) (hrun : s.running = true) (habort : s.abortRequested = false) (hbusy : s.busy = none)
    (hpc : s.pc ≠ Config.kbsrAddr) : step s = exec (decode (s.mem.read s.pc)) { s with pc := s.pc + 1 } := by
  rw [step_eq_exec_fetch s hrun habort hbusy, fetch_plain s hpc]

/-! ## Which words change -/

/-- The keyboard words aside, no shared operation changes a stored word. -/
theorem opsKeep_wordsKeptBut : OpsKeep (WordsKeptBut [Config.kbsrAddr, Config.kbdrAddr]) where
  refl _ _ _ := rfl
  trans := WordsKeptBut.trans
  setReg _ _ _ _ _ := rfl
  setPc _ _ _ _ := rfl
  setcc _ _ _ _ := rfl
  emit _ _ _ _ := rfl
  setBusy _ _ _ _ := rfl
  askHost s _ _ := by rw [askHost_mem]
  memRead a s := by
    apply (memRead_wordsKeptBut a s).mono
    unfold touchedByRead
    split <;> simp

/-- The host has been asked, which shortens its script or advances the counter of free answers; or no word has changed. -/
def AskedOrKept (s t : State) : Prop :=
  t.hostScript.length ≤ s.hostScript.length ∧ s.hostCalls ≤ t.hostCalls ∧
    (t.hostScript.length < s.hostScript.length ∨ s.hostCalls < t.hostCalls ∨ t.mem = s.mem)

theorem AskedOrKept.of_kept {s t : State} (hscript : t.hostScript = s.hostScript) (hcalls : t.hostCalls = s.hostCalls)
    (hmem : t.mem = s.mem) : AskedOrKept s t :=
  ⟨hscript ▸ le_rfl, hcalls ▸ le_rfl, .inr (.inr hmem)⟩

theorem AskedOrKept.trans {s t u : State} (hst : AskedOrKept s t) (htu : AskedOrKept t u) : AskedOrKept s u := by
  obtain ⟨hscript, hcalls, hasked⟩ := hst
  obtain ⟨hscript', hcalls', hasked'⟩ := htu
  refine ⟨hscript'.trans hscript, hcalls.trans hcalls', ?_⟩
  rcases hasked with hshorter | hmore | hmem
  · exact .inl (by omega)
  · exact .inr (.inl (by omega))
  · rcases hasked' with hshorter | hmore | hmem'
    · exact .inl (by omega)
    · exact .inr (.inl (by omega))
    · exact .inr (.inr (hmem'.trans hmem))

/-- Whatever is done to memory after a request, the host has been asked. -/
theorem askedOrKept_of_askHost {s t : State} (hscript : t.hostScript = (askHost s).2.hostScript)
    (hcalls : t.hostCalls = (askHost s).2.hostCalls) : AskedOrKept s t := by
  unfold AskedOrKept
  rw [hscript, hcalls]
  cases hs : s.hostScript with
  | nil => simp [askHost_free s hs, hs]
  | cons answer rest => simp [askHost_script s answer rest hs]

theorem askedOrKept_pollKeyboard (s : State) : AskedOrKept s (pollKeyboard s) := by
  cases hanswer : (askHost s).1 with
  | none =>
    rw [pollKeyboard_no_key s hanswer]
    exact askedOrKept_of_askHost rfl rfl
  | some c =>
    rw [pollKeyboard_key s c hanswer]
    exact askedOrKept_of_askHost rfl rfl

theorem opsKeep_askedOrKept : OpsKeep AskedOrKept where
  refl _ := .of_kept rfl rfl rfl
  trans := AskedOrKept.trans
  setReg _ _ _ := .of_kept rfl rfl rfl
  setPc _ _ := .of_kept rfl rfl rfl
  setcc _ _ := .of_kept rfl rfl rfl
  emit _ _ := .of_kept rfl rfl rfl
  setBusy _ _ := .of_kept rfl rfl rfl
  askHost _ := askedOrKept_of_askHost rfl rfl
  memRead a s := by
    obtain hplain | ⟨_, hpoll⟩ := memRead_state a s
    · rw [hplain]
      exact .of_kept rfl rfl rfl
    · rw [hpoll]
      exact askedOrKept_pollKeyboard s

/-- An instruction is shared operations and at most one store, at its `storesTo`. -/
theorem OpsKeep.exec_but_store {R : State → State → Prop} (hR : OpsKeep R) {i : Instr} {s t : State}
    (h : exec i s = .next t) :
    ∃ u, R s u ∧ t.hostScript = u.hostScript ∧ t.hostCalls = u.hostCalls ∧
      ∀ a, storesTo i s ≠ some a → t.mem.read a = u.mem.read a := by
  obtain ⟨u, hu, hplain | ⟨b, v, hstores, hstore⟩ | ⟨_, hhalt⟩⟩ := hR.exec_cases i s
  · cases hplain.symm.trans h
    exact ⟨_, hu, rfl, rfl, fun _ _ => rfl⟩
  · cases hstore.symm.trans h
    refine ⟨u, hu, rfl, rfl, fun a ha => Memory.read_write_other u.mem b a v ?_⟩
    rintro rfl
    exact ha hstores
  · cases hhalt.symm.trans h
    exact ⟨u, hu, rfl, rfl, fun _ _ => rfl⟩

end Sys2Proof.Machine

namespace Sys2Proof.Proofs

open Sys2Proof.Machine

/-- Settles O16: each form defines DR from its operands' words. -/
theorem operateResultsAndFrame : Obligations.OperateResultsAndFrame := by
  unfold Obligations.OperateResultsAndFrame
  intro dr sr1 s
  refine ⟨fun sr2 => ⟨_, rfl, ?addReg, defineReg_onlyDefines dr _ s⟩,
    fun imm5 => ⟨_, rfl, ?addImm, defineReg_onlyDefines dr _ s⟩,
    fun sr2 => ⟨_, rfl, ?andReg, defineReg_onlyDefines dr _ s⟩,
    fun imm5 => ⟨_, rfl, ?andImm, defineReg_onlyDefines dr _ s⟩,
    ⟨_, rfl, ?not, defineReg_onlyDefines dr _ s⟩⟩
  case addReg => rw [defineReg_reg_same, BitVec.toNat_add]
  case addImm => rw [defineReg_reg_same, add_sext, toNat_addSigned]
  case andReg =>
    intro k
    rw [defineReg_reg_same, BitVec.getLsbD_and]
  case andImm =>
    intro k
    rw [defineReg_reg_same, getLsbD_and_sext_imm5]
  case not => rw [defineReg_reg_same, BitVec.toNat_not]

/-- Settles O17: the two modes define DR from the same words. -/
theorem registerAndImmediateModesAgree : Obligations.RegisterAndImmediateModesAgree := by
  unfold Obligations.RegisterAndImmediateModesAgree
  intro dr sr1 sr2 imm5 s heq
  constructor
  · simp only [exec, execAddReg, execAddImm, heq]
  · simp only [exec, execAndReg, execAndImm, heq]

/-- Settles O32: DR is defined from the address. -/
theorem leaDefinesTheAddress : Obligations.LeaDefinesTheAddress := by
  unfold Obligations.LeaDefinesTheAddress
  intro dr o s
  refine ⟨_, rfl, ?_, defineReg_onlyDefines dr _ s⟩
  rw [defineReg_reg_same, pcRelative_eq, toNat_addSigned]

/-- Settles O30: each load is one `loadFrom`, LDI's in the state its pointer read left. -/
theorem loadsDefineFromTheWordRead : Obligations.LoadsDefineFromTheWordRead := by
  unfold Obligations.LoadsDefineFromTheWordRead
  intro dr s
  refine ⟨fun o => ⟨_, rfl, loadFrom_loadsWord dr _ s⟩, fun b o => ⟨_, rfl, loadFrom_loadsWord dr _ s⟩, ?ldi⟩
  case ldi =>
    intro o
    obtain ⟨hvalue, hflag, hregs, hpc, hlife, hhost, hread, hwords⟩ :=
      loadFrom_loadsWord dr (indirect o s).1 (indirect o s).2
    have hpointer : WordsKeptBut (touchedByRead (pcRelative o s)) s (indirect o s).2 := memRead_wordsKeptBut _ s
    exact ⟨_, rfl, hvalue, hflag, (RegsKeptBut.of_regs_eq [dr] (memRead_regs _ s)).trans hregs,
      hpc.trans (memRead_pc _ s), (memRead_lifeKept _ s).trans hlife, hhost, hread,
      (hpointer.mono (List.subset_append_left _ _)).trans (hwords.mono (List.subset_append_right _ _))⟩

/-- Settles O31: every read is plain, so each load defines DR from a stored word. -/
theorem plainLoadsReadTheStoredWord : Obligations.PlainLoadsReadTheStoredWord := by
  unfold Obligations.PlainLoadsReadTheStoredWord
  intro dr s
  refine ⟨?ld, ?ldr, ?ldi⟩
  case ld =>
    intro o hplain
    exact ⟨_, congrArg Host.Outcome.next (loadFrom_plain dr _ s hplain), defineReg_reg_same dr _ s,
      defineReg_onlyDefines dr _ s⟩
  case ldr =>
    intro b o hplain
    exact ⟨_, congrArg Host.Outcome.next (loadFrom_plain dr _ s hplain), defineReg_reg_same dr _ s,
      defineReg_onlyDefines dr _ s⟩
  case ldi =>
    intro o hpointer hplain
    refine ⟨_, congrArg Host.Outcome.next ?_, defineReg_reg_same dr _ s, defineReg_onlyDefines dr _ s⟩
    rw [indirect_plain o s hpointer, loadFrom_plain dr _ s hplain]

/-- Settles O33: each store is one `memWrite`, STI's in the state its pointer read left. -/
theorem storesWriteExactlyOneWord : Obligations.StoresWriteExactlyOneWord := by
  unfold Obligations.StoresWriteExactlyOneWord
  intro sr s
  refine ⟨fun o => ⟨_, rfl, memWrite_storesWord _ _ s⟩, fun b o => ⟨_, rfl, memWrite_storesWord _ _ s⟩, ?sti⟩
  case sti =>
    intro o
    obtain ⟨hvalue, hwords, hregs, hpc, hcond, hlife, hhost⟩ :=
      memWrite_storesWord (indirect o s).1 ((indirect o s).2.reg sr) (indirect o s).2
    have hpointer : WordsKeptBut (touchedByRead (pcRelative o s)) s (indirect o s).2 := memRead_wordsKeptBut _ s
    exact ⟨_, rfl, hvalue.trans (memRead_reg _ s sr), hwords,
      (hpointer.mono (List.subset_cons_self _ _)).trans (hwords.mono (by simp)),
      (RegsKeptBut.of_regs_eq [] (memRead_regs _ s)).trans hregs, hpc.trans (memRead_pc _ s),
      hcond.trans (memRead_cond _ s), (memRead_lifeKept _ s).trans hlife, hhost⟩

/-- Settles O34: the pointer's read is plain, so STI is one store. -/
theorem plainIndirectStoreWritesThroughThePointer : Obligations.PlainIndirectStoreWritesThroughThePointer := by
  unfold Obligations.PlainIndirectStoreWritesThroughThePointer
  intro sr o s hpointer
  have hexec : exec (.sti sr o) s = .next (memWrite (s.mem.read (pcRelative o s)) (s.reg sr) s) := by
    simp only [exec, execSti, indirect_plain o s hpointer]
  exact ⟨_, hexec, memWrite_storesWord _ _ s⟩

/-- Settles O35: the stored word is the one that the next fetch reads. -/
theorem nextFetchSeesTheStore : Obligations.NextFetchSeesTheStore := by
  unfold Obligations.NextFetchSeesTheStore
  intro i sr s t hrun habort hbusy hplain haddr hreg hexec
  obtain ⟨u, hstore, ⟨hrun', hbusy', _⟩, hpc, habort'⟩ := exec_of_storesTo haddr hreg
  cases hstore.symm.trans hexec
  have hstep := step_plain (memWrite s.pc (s.reg sr) u) (hrun'.trans hrun) (habort'.trans habort)
    (hbusy'.trans hbusy) (by rw [memWrite_pc, hpc]; exact hplain)
  rw [hstep, memWrite_pc, hpc, memWrite_read_same]

/-- Settles O36: the shared operations change the keyboard words alone, and those only by asking the host; the one store is at
`storesTo`. -/
theorem memoryChangesOnlyByStoresAndStatusReads : Obligations.MemoryChangesOnlyByStoresAndStatusReads := by
  unfold Obligations.MemoryChangesOnlyByStoresAndStatusReads
  intro i s t hexec
  constructor
  · intro a hkbsr hkbdr hstore
    obtain ⟨u, hwords, _, _, hrest⟩ := opsKeep_wordsKeptBut.exec_but_store hexec
    exact (hrest a hstore).trans (hwords a (by simp [hkbsr, hkbdr]))
  · intro hscript hcalls a hstore
    obtain ⟨u, ⟨_, _, hasked⟩, hscript', hcalls', hrest⟩ := opsKeep_askedOrKept.exec_but_store hexec
    rw [← hscript', hscript, ← hcalls', hcalls] at hasked
    have hmem : u.mem = s.mem := by simpa using hasked
    rw [hrest a hstore, hmem]

end Sys2Proof.Proofs
end

section
/-! PROOFS. The keyboard, the fetch and the single-character routines (spec/20_memory.md R52 to R56, 10_state.md R30 to R35,
43_trap.md R152, R153, R155, R157). A read of the keyboard status address is one request to the host and its outcome in the
two keyboard words; it is said once, by the host's answer, for the read, the fetch and the strings. -/

namespace Sys2Proof.Machine

/-! ## The poll by the host's answer -/

theorem memAfterKey_read_status (m : Memory) (c : Byte) :
    (memAfterKey m c).read Config.kbsrAddr = m.read Config.kbsrAddr ||| 0x8000 := by
  rw [memAfterKey, Memory.read_write_other _ _ _ _ (by decide), Memory.read_write_same]

theorem memAfterKey_read_data (m : Memory) (c : Byte) : (memAfterKey m c).read Config.kbdrAddr = zext16 c :=
  Memory.read_write_same _ _ _

/-- Without a key the read answers the cleared word. -/
theorem memRead_status_no_key (s : State) (h : (askHost s).1 = none) :
    memRead Config.kbsrAddr s = (0x0000, { (askHost s).2 with mem := s.mem.write Config.kbsrAddr 0x0000 }) := by
  rw [memRead_status, pollKeyboard_no_key s h, memWrite_mem, Memory.read_write_same, memWrite, askHost_mem]

/-- With a key the read answers the updated word. -/
theorem memRead_status_key (s : State) (c : Byte) (h : (askHost s).1 = some c) :
    memRead Config.kbsrAddr s =
      (s.mem.read Config.kbsrAddr ||| 0x8000, { (askHost s).2 with mem := memAfterKey s.mem c }) := by
  have hpoll : pollKeyboard s = { (askHost s).2 with mem := memAfterKey s.mem c } := by
    rw [pollKeyboard_key s c h, memWrite, memWrite_mem, askHost_mem]
    rfl
  rw [memRead_status, hpoll, memAfterKey_read_status]

/-- A word whose top bit is set is not zero, and its top bit says so. -/
theorem msb_or_ready (w : Word) : (w ||| 0x8000).msb = true := by
  rw [BitVec.msb_or]
  exact Bool.or_true _

theorem fetch_status_no_key (s : State) (hpc : s.pc = Config.kbsrAddr) (h : (askHost s).1 = none) :
    fetch s = (0x0000, { (askHost s).2 with pc := s.pc + 1, mem := s.mem.write Config.kbsrAddr 0x0000 }) := by
  have hread := memRead_status_no_key s h
  rw [← hpc] at hread ⊢
  simp only [fetch, hread, State.setPc, askHost_pc]

theorem fetch_status_key (s : State) (c : Byte) (hpc : s.pc = Config.kbsrAddr) (h : (askHost s).1 = some c) :
    fetch s = (s.mem.read Config.kbsrAddr ||| 0x8000,
      { (askHost s).2 with pc := s.pc + 1, mem := memAfterKey s.mem c }) := by
  have hread := memRead_status_key s c h
  rw [← hpc] at hread ⊢
  simp only [fetch, hread, State.setPc, askHost_pc]

theorem memRead_readKeeps (a : Word) (s : State) : ReadKeeps a s (memRead a s).2 :=
  ⟨.of_regs_eq [] (memRead_regs a s), memRead_pc a s, memRead_cond a s, memRead_lifeKept a s, memRead_abortRequested a s,
    memRead_wordsKeptBut a s⟩

/-! ## The byte of OUT -/

theorem toNat_lowByte (w : Word) : (lowByte w).toNat = w.toNat % 256 := by
  simp [lowByte]

end Sys2Proof.Machine

namespace Sys2Proof.Proofs

open Sys2Proof.Machine

/-- Settles O26: a plain read, the data word's among them. -/
theorem readsElsewhereArePlain : Obligations.ReadsElsewhereArePlain := by
  unfold Obligations.ReadsElsewhereArePlain
  exact ⟨fun a s ha => memRead_plain a s ha, fun s => memRead_plain Config.kbdrAddr s (by decide)⟩

/-- Settles O59: the two ways a request is answered. -/
theorem hostAnswersAreTakenInOrder : Obligations.HostAnswersAreTakenInOrder := by
  unfold Obligations.HostAnswersAreTakenInOrder
  exact fun s => ⟨askHost_script s, askHost_free s⟩

/-- Settles O28: the two outcomes of the poll. -/
theorem statusReadIsReadyOrClear : Obligations.StatusReadIsReadyOrClear := by
  unfold Obligations.StatusReadIsReadyOrClear
  intro s
  refine ⟨?noKey, ?key, ?ready, memRead_value _ s, memRead_readKeeps _ s, ?host⟩
  case noKey =>
    intro hnone
    rw [memRead_status_no_key s hnone]
    exact ⟨rfl, Memory.read_write_other _ _ _ _ (by decide)⟩
  case key =>
    intro c hsome
    rw [memRead_status_key s c hsome]
    exact ⟨rfl, (congrArg BitVec.toNat (memAfterKey_read_data s.mem c)).trans (toNat_zext16 c)⟩
  case ready =>
    cases hanswer : (askHost s).1 with
    | none => simp [memRead_status_no_key s hanswer]
    | some c =>
      rw [memRead_status_key s c hanswer]
      exact iff_of_true (msb_or_ready _) nofun
  case host =>
    cases hanswer : (askHost s).1 with
    | none => rw [memRead_status_no_key s hanswer]; exact ⟨rfl, rfl, rfl⟩
    | some c => rw [memRead_status_key s c hanswer]; exact ⟨rfl, rfl, rfl⟩

/-- Settles O27: the outcomes of the poll by the script's next answer, or by a free one. -/
theorem statusReadPollsTheHost : Obligations.StatusReadPollsTheHost := by
  unfold Obligations.StatusReadPollsTheHost
  intro s
  refine ⟨?noKey, ?key, ?free, memRead_readKeeps _ s⟩
  case noKey =>
    intro rest hscript
    have hask := askHost_script s none rest hscript
    rw [memRead_status_no_key s (by rw [hask]), hask]
    exact ⟨rfl, Memory.read_write_same _ _ _, Memory.read_write_other _ _ _ _ (by decide), rfl, rfl⟩
  case key =>
    intro c rest hscript
    have hask := askHost_script s (some c) rest hscript
    rw [memRead_status_key s c (by rw [hask]), hask]
    refine ⟨rfl, memAfterKey_read_status s.mem c, ?_, rfl, rfl⟩
    exact (congrArg BitVec.toNat (memAfterKey_read_data s.mem c)).trans (toNat_zext16 c)
  case free =>
    intro hscript
    have hask := askHost_free s hscript
    cases hanswer : Config.freeAnswer s.hostCalls with
    | none =>
      rw [memRead_status_no_key s (by rw [hask, hanswer]), hask]
      exact ⟨fun _ => rfl, nofun, hscript, rfl⟩
    | some c =>
      rw [memRead_status_key s c (by rw [hask, hanswer]), hask]
      refine ⟨nofun, ?_, hscript, rfl⟩
      rintro d ⟨⟩
      exact ⟨rfl, (congrArg BitVec.toNat (memAfterKey_read_data s.mem c)).trans (toNat_zext16 c)⟩

/-- Settles O6: the fetch is plain. -/
theorem stepRunsTheDecodedInstruction : Obligations.StepRunsTheDecodedInstruction := by
  unfold Obligations.StepRunsTheDecodedInstruction
  exact step_plain

/-- Settles O7: the fetch is the status read and the increment. -/
theorem fetchAtStatusAddressRunsTheUpdatedWord : Obligations.FetchAtStatusAddressRunsTheUpdatedWord := by
  unfold Obligations.FetchAtStatusAddressRunsTheUpdatedWord
  intro s hrun habort hbusy hpc
  rw [step_eq_exec_fetch s hrun habort hbusy]
  exact ⟨fun hnone => by rw [fetch_status_no_key s hpc hnone], fun c hsome => by rw [fetch_status_key s c hpc hsome]⟩

/-- Settles O8: no step is taken. -/
theorem haltedMachineNeverChanges : Obligations.HaltedMachineNeverChanges := by
  unfold Obligations.HaltedMachineNeverChanges
  exact step_halted

/-- Settles O38: the vectors are compared. -/
theorem trapSelectsTheRoutine : Obligations.TrapSelectsTheRoutine := by
  unfold Obligations.TrapSelectsTheRoutine
  exact fun s => ⟨rfl, rfl, rfl, rfl, rfl, rfl⟩

/-- Settles O39: GETC's one look at the host takes the character. -/
theorem getcReadsACharacter : Obligations.GetcReadsACharacter := by
  unfold Obligations.GetcReadsACharacter
  intro s c hsome
  obtain ⟨hbusy, hhost, hout, hr0⟩ := takeGetc_charTaken s c hsome
  obtain ⟨hregs, hcond, hpc, hrun, habort, hwords⟩ := takeGetc_charReadKeeps s
  exact ⟨takeGetc s, rfl, hr0, hregs, hhost, habort, by simpa using hout, hcond, hpc, hrun, hbusy, hwords⟩

/-- Settles O40: IN's look is GETC's after the prompt, with an echo. -/
theorem inPromptsReadsAndEchoes : Obligations.InPromptsReadsAndEchoes := by
  unfold Obligations.InPromptsReadsAndEchoes
  intro s c hsome
  have hprompted : (askHost (s.emit Config.inPrompt)).1 = some c := by rw [askHost_emit, hsome]
  obtain ⟨hbusy, hhost, hout, hr0⟩ := takeInEcho_charTaken (s.emit Config.inPrompt) c hprompted
  obtain ⟨hregs, hcond, hpc, hrun, habort, hwords⟩ := inEchoRoutine_charReadKeeps s
  rw [askHost_emit] at hhost
  exact ⟨inEchoRoutine s, rfl, hout, hr0, hregs, hhost, habort, hcond, hpc, hrun, hbusy, hwords⟩

/-- Settles O42: the byte is R0's low byte. -/
theorem outWritesTheLowByte : Obligations.OutWritesTheLowByte := by
  unfold Obligations.OutWritesTheLowByte
  intro s
  exact ⟨outRoutine s, rfl, rfl, lowByte (s.reg .r0), rfl, toNat_lowByte _⟩

/-- Settles O48: HALT leaves a halted machine. -/
theorem haltStopsTheRun : Obligations.HaltStopsTheRun := by
  unfold Obligations.HaltStopsTheRun
  intro s
  exact ⟨haltRoutine s, rfl, rfl, step_halted _ rfl⟩

end Sys2Proof.Proofs
end

section
/-! PROOFS. Strings (spec/43_trap.md R154, R156; 20_memory.md R57). The walk passes the plain words of a string in one go; what
is left is its end, at the zero word, or its way over the keyboard status word. -/

namespace Sys2Proof.Machine

/-! ## The bytes of a word -/

theorem lowByte_eq (w : Word) : lowByte w = BitVec.ofNat 8 (w.toNat % 256) := by
  apply BitVec.eq_of_toNat_eq
  rw [toNat_lowByte, BitVec.toNat_ofNat]
  omega

theorem toNat_highByte (w : Word) : (highByte w).toNat = w.toNat / 256 := by
  rw [highByte, BitVec.extractLsb'_toNat, Nat.shiftRight_eq_div_pow]
  omega

theorem highByte_eq (w : Word) : highByte w = BitVec.ofNat 8 (w.toNat / 256) := by
  apply BitVec.eq_of_toNat_eq
  rw [toNat_highByte, BitVec.toNat_ofNat]
  omega

theorem highByte_eq_zero_iff (w : Word) : highByte w = 0 ↔ w.toNat < 256 := by
  rw [← BitVec.toNat_inj, toNat_highByte]
  change w.toNat / 256 = 0 ↔ w.toNat < 256
  omega

theorem putsBytes_eq_putsText : putsBytes = putsText := by
  funext w
  rw [putsBytes, putsText, lowByte_eq]

theorem putspBytes_eq_putspText : putspBytes = putspText := by
  funext w
  simp only [putspBytes, putspText, highByte_eq_zero_iff]
  rw [lowByte_eq, highByte_eq]

/-! ## Where a string's words are -/

theorem add_ofNat_succ (a : Word) (k : Nat) : a + BitVec.ofNat 16 (k + 1) = a + 1 + BitVec.ofNat 16 k := by
  rw [Nat.add_comm, BitVec.ofNat_add, BitVec.add_assoc]
  rfl

theorem mem_addressesFrom (a b : Word) (n : Nat) : b ∈ addressesFrom a n ↔ ∃ k < n, b = a + BitVec.ofNat 16 k := by
  induction n generalizing a with
  | zero => simp [addressesFrom]
  | succ n ih =>
    rw [addressesFrom, List.mem_cons, ih]
    constructor
    · rintro (rfl | ⟨k, hk, rfl⟩)
      · exact ⟨0, Nat.succ_pos n, (BitVec.add_zero b).symm⟩
      · exact ⟨k + 1, Nat.succ_lt_succ hk, (add_ofNat_succ a k).symm⟩
    · rintro ⟨k, hk, rfl⟩
      cases k with
      | zero => exact .inl (BitVec.add_zero a)
      | succ k => exact .inr ⟨k, Nat.lt_of_succ_lt_succ hk, add_ofNat_succ a k⟩

/-- The address after `n` words is none of theirs, short of a whole lap. -/
theorem not_mem_addressesFrom_end (a : Word) (n : Nat) (h : n < 65536) :
    a + BitVec.ofNat 16 n ∉ addressesFrom a n := by
  rw [mem_addressesFrom]
  rintro ⟨k, hk, heq⟩
  have hsame : n % 65536 = k % 65536 := by
    simpa using congrArg BitVec.toNat ((BitVec.add_right_inj a).mp heq)
  omega

/-- A string is its words and the zero word after them. -/
theorem stringAt_iff (m : Memory) (a : Word) (ws : List Word) :
    StringAt m a ws ↔ WordsAt m a ws ∧ m.read (a + BitVec.ofNat 16 ws.length) = 0x0000 := by
  induction ws generalizing a with
  | nil => simp [StringAt, WordsAt]
  | cons w ws ih => rw [StringAt, WordsAt, ih, List.length_cons, add_ofNat_succ, and_assoc, and_assoc]

/-! ## The walk over a string -/

/-- The walk over a string away from the keyboard status word writes its words' bytes and changes nothing else. -/
theorem walk_string (bytesOf : Word → List Byte) (fuel : Nat) {a : Word} {ws : List Word} {s : State}
    (hstring : StringAt s.mem a ws) (hfuel : ws.length < fuel)
    (hplain : Config.kbsrAddr ∉ addressesFrom a (ws.length + 1)) :
    walk bytesOf fuel a s = (none, s.emit (ws.flatMap bytesOf)) := by
  obtain ⟨hwords, hzero⟩ := (stringAt_iff s.mem a ws).mp hstring
  obtain ⟨rest, rfl⟩ := Nat.exists_eq_add_of_lt hfuel
  rw [mem_addressesFrom] at hplain
  have hwordsPlain : Config.kbsrAddr ∉ addressesFrom a ws.length := by
    rw [mem_addressesFrom]
    exact fun ⟨k, hk, heq⟩ => hplain ⟨k, Nat.lt_succ_of_lt hk, heq⟩
  have hread := memRead_plain (a + BitVec.ofNat 16 ws.length) (s.emit (ws.flatMap bytesOf))
    fun heq => hplain ⟨ws.length, Nat.lt_succ_self _, heq.symm⟩
  rw [Nat.add_assoc, walk_plain_words bytesOf (rest + 1) a ws s hwords hwordsPlain,
    walk_zero_word _ _ _ _ (by rw [hread]; exact hzero), hread]

/-- The walk over the words before the keyboard status word comes to it. -/
theorem walk_to_status (bytesOf : Word → List Byte) (fuel : Nat) {a : Word} {ws : List Word} {s : State}
    (hwords : WordsAt s.mem a ws) (hend : a + BitVec.ofNat 16 ws.length = Config.kbsrAddr) (hlen : ws.length < 65536) :
    walk bytesOf (ws.length + fuel) a s = walk bytesOf fuel Config.kbsrAddr (s.emit (ws.flatMap bytesOf)) := by
  have hplain := not_mem_addressesFrom_end a ws.length hlen
  rw [hend] at hplain
  rw [walk_plain_words bytesOf fuel a ws s hwords hplain, hend]

/-- Without a key the status word reads as zero, so it ends the string. -/
theorem walk_over_status_no_key (bytesOf : Word → List Byte) (fuel : Nat) {a : Word} {ws : List Word} {s : State}
    (hwords : WordsAt s.mem a ws) (hend : a + BitVec.ofNat 16 ws.length = Config.kbsrAddr)
    (hnone : (askHost s).1 = none) (hlen : ws.length < 65536) (hfuel : ws.length < fuel) :
    walk bytesOf fuel a s = (none,
      { (askHost s).2 with output := s.output ++ ws.flatMap bytesOf, mem := s.mem.write Config.kbsrAddr 0x0000 }) := by
  obtain ⟨rest, rfl⟩ := Nat.exists_eq_add_of_lt hfuel
  have hread := memRead_status_no_key (s.emit (ws.flatMap bytesOf)) (by rw [askHost_emit, hnone])
  rw [Nat.add_assoc, walk_to_status bytesOf (rest + 1) hwords hend hlen, walk_zero_word _ _ _ _ (by rw [hread]), hread,
    askHost_emit, State.emit, askHost_output]
  rfl

/-- With a key the status word reads as its updated self, which is not zero, so the string goes on after it. -/
theorem walk_over_status_key (bytesOf : Word → List Byte) (fuel : Nat) {a : Word} {ws vs : List Word} {s : State} {c : Byte}
    (hwords : WordsAt s.mem a ws) (hend : a + BitVec.ofNat 16 ws.length = Config.kbsrAddr)
    (hsome : (askHost s).1 = some c) (hrest : StringAt (memAfterKey s.mem c) (Config.kbsrAddr + 1) vs)
    (hlen : ws.length + 1 + vs.length < 65536) (hfuel : ws.length + 1 + vs.length < fuel) :
    walk bytesOf fuel a s = (none,
      { (askHost s).2 with
        output := s.output ++ (ws ++ (s.mem.read Config.kbsrAddr ||| 0x8000) :: vs).flatMap bytesOf
        mem := memAfterKey s.mem c }) := by
  obtain ⟨rest, rfl⟩ : ∃ rest, fuel = ws.length + (rest + 1) := ⟨fuel - ws.length - 1, by omega⟩
  have hread := memRead_status_key (s.emit (ws.flatMap bytesOf)) c (by rw [askHost_emit, hsome])
  have hready : s.mem.read Config.kbsrAddr ||| 0x8000 ≠ 0x0000 := by
    intro hzero
    exact absurd (msb_or_ready (s.mem.read Config.kbsrAddr)) (by rw [hzero]; decide)
  have hplain : Config.kbsrAddr ∉ addressesFrom (Config.kbsrAddr + 1) (vs.length + 1) := by
    rw [mem_addressesFrom]
    rintro ⟨k, hk, heq⟩
    have hlap := congrArg BitVec.toNat heq
    simp [Config.kbsrAddr] at hlap
    omega
  rw [walk_to_status bytesOf (rest + 1) hwords hend (by omega), walk_word _ _ _ _ (by rw [hread]; exact hready), hread]
  rw [walk_string bytesOf rest hrest (by omega) hplain, askHost_emit]
  simp [State.emit]

/-! ## The routines, from the walk that has ended -/

theorem putsFrom_of_walk {a : Word} {s t : State} (h : walk putsBytes Config.stringLap a s = (none, t))
    (hbusy : t.busy = none) : putsFrom a s = t := by
  rw [putsFrom, h]
  exact setBusy_of_busy_eq hbusy

theorem putspFrom_of_walk {a : Word} {s t : State} (h : walk putspBytes Config.stringLap a s = (none, t))
    (hbusy : t.busy = none) : putspFrom a s = t := by
  rw [putspFrom, h]
  exact setBusy_of_busy_eq hbusy

end Sys2Proof.Machine

namespace Sys2Proof.Proofs

open Sys2Proof.Machine

/-- Settles O43: the walk over the whole string. -/
theorem putsWritesTheStringUpToTheZeroWord : Obligations.PutsWritesTheStringUpToTheZeroWord := by
  unfold Obligations.PutsWritesTheStringUpToTheZeroWord
  intro s ws hstring hlen hplain hbusy
  have hroutine := putsFrom_of_walk (walk_string putsBytes Config.stringLap hstring hlen hplain) hbusy
  rw [putsBytes_eq_putsText] at hroutine
  rw [List.map_eq_flatMap]
  exact congrArg Host.Outcome.next hroutine

/-- Settles O44: the walk over the whole string. -/
theorem putspWritesThePackedString : Obligations.PutspWritesThePackedString := by
  unfold Obligations.PutspWritesThePackedString
  intro s ws hstring hlen hplain hbusy
  have hroutine := putspFrom_of_walk (walk_string putspBytes Config.stringLap hstring hlen hplain) hbusy
  rw [putspBytes_eq_putspText] at hroutine
  exact congrArg Host.Outcome.next hroutine

/-- Settles O45: the walk comes to the status word, whose read polls, and ends there or goes on after it. -/
theorem stringsOverTheStatusWordPoll : Obligations.StringsOverTheStatusWordPoll := by
  unfold Obligations.StringsOverTheStatusWordPoll
  intro s ws hwords hend hbusy
  have hidle : (askHost s).2.busy = none := (askHost_busy s).trans hbusy
  rw [← putsBytes_eq_putsText, ← putspBytes_eq_putspText]
  refine ⟨fun hnone hlen => ⟨?_, ?_⟩, fun c vs hsome hrest hlen => ⟨?_, ?_⟩⟩
  · exact congrArg Host.Outcome.next
      (putsFrom_of_walk (walk_over_status_no_key putsBytes _ hwords hend hnone hlen hlen) hidle)
  · exact congrArg Host.Outcome.next
      (putspFrom_of_walk (walk_over_status_no_key putspBytes _ hwords hend hnone hlen hlen) hidle)
  · exact congrArg Host.Outcome.next
      (putsFrom_of_walk (walk_over_status_key putsBytes _ hwords hend hsome hrest hlen hlen) hidle)
  · exact congrArg Host.Outcome.next
      (putspFrom_of_walk (walk_over_status_key putspBytes _ hwords hend hsome hrest hlen hlen) hidle)

end Sys2Proof.Proofs
end

section
/-! PROOFS. Parts of the state that an operation does not see (spec/10_state.md R26, 60_exceptions.md R183). Memory and the host
see neither the registers nor the flag nor the abort; so a walk, and for the flag every instruction but BR, does the same
whatever these are. -/

namespace Sys2Proof.Machine

/-! ## Changes that memory and the host do not see -/

/-- The change `f` of the state passes through every operation on memory, host, output and `busy`. -/
structure Unseen (f : State → State) : Prop where
  mem : ∀ s, (f s).mem = s.mem
  askHost : ∀ s, askHost (f s) = ((askHost s).1, f (askHost s).2)
  memWrite : ∀ a v s, memWrite a v (f s) = f (memWrite a v s)
  emit : ∀ bs s, (f s).emit bs = f (s.emit bs)
  setBusy : ∀ b s, (f s).setBusy b = f (s.setBusy b)

/-- Registers, flag and abort are unseen, however they change. -/
theorem unseen_regs_cond_abort (g : RegFile → RegFile) (c : Cond → Cond) (b : Bool → Bool) :
    Unseen fun s => { s with regs := g s.regs, cond := c s.cond, abortRequested := b s.abortRequested } where
  mem _ := rfl
  askHost s := by
    unfold askHost
    cases s.hostScript <;> rfl
  memWrite _ _ _ := rfl
  emit _ _ := rfl
  setBusy _ _ := rfl

theorem unseen_regs (g : RegFile) : Unseen ({ · with regs := g }) :=
  unseen_regs_cond_abort (fun _ => g) id id

theorem unseen_cond (c : Cond) : Unseen ({ · with cond := c }) :=
  unseen_regs_cond_abort id (fun _ => c) id

theorem unseen_abort (b : Bool) : Unseen ({ · with abortRequested := b }) :=
  unseen_regs_cond_abort id id (fun _ => b)

namespace Unseen

variable {f : State → State} (hf : Unseen f)
include hf

theorem pollKeyboard (s : State) : pollKeyboard (f s) = f (pollKeyboard s) := by
  cases hanswer : (Machine.askHost s).1 with
  | none =>
    rw [pollKeyboard_no_key s hanswer, pollKeyboard_no_key (f s) (by rw [hf.askHost, hanswer]), hf.askHost, hf.memWrite]
  | some c =>
    rw [pollKeyboard_key s c hanswer, pollKeyboard_key (f s) c (by rw [hf.askHost, hanswer]), hf.askHost, hf.mem,
      hf.memWrite, hf.memWrite]

theorem memRead (a : Word) (s : State) : memRead a (f s) = ((memRead a s).1, f (memRead a s).2) := by
  by_cases ha : a = Config.kbsrAddr
  · rw [ha, memRead_status, memRead_status, hf.pollKeyboard, hf.mem]
  · rw [memRead_plain a s ha, memRead_plain a (f s) ha, hf.mem]

theorem walk (bytesOf : Word → List Byte) (fuel : Nat) (a : Word) (s : State) :
    walk bytesOf fuel a (f s) = ((walk bytesOf fuel a s).1, f (walk bytesOf fuel a s).2) := by
  induction fuel generalizing a s with
  | zero => rfl
  | succ fuel ih =>
    by_cases hz : (Machine.memRead a s).1 = 0x0000
    · rw [walk_zero_word _ _ _ _ hz, walk_zero_word _ _ _ (f s) (by rw [hf.memRead]; exact hz), hf.memRead]
    · rw [walk_word _ _ _ _ hz, walk_word _ _ _ (f s) (by rw [hf.memRead]; exact hz), hf.memRead, hf.emit, ih]

theorem putsFrom (a : Word) (s : State) : putsFrom a (f s) = f (putsFrom a s) := by
  rw [Machine.putsFrom, Machine.putsFrom, hf.walk, hf.setBusy]

theorem putspFrom (a : Word) (s : State) : putspFrom a (f s) = f (putspFrom a s) := by
  rw [Machine.putspFrom, Machine.putspFrom, hf.walk, hf.setBusy]

theorem takeGetc (hset : ∀ r v s, (f s).setReg r v = f (s.setReg r v)) (s : State) : takeGetc (f s) = f (takeGetc s) := by
  cases hanswer : (Machine.askHost s).1 with
  | none => rw [takeGetc_wait s hanswer, takeGetc_wait (f s) (by rw [hf.askHost, hanswer]), hf.askHost, hf.setBusy]
  | some c =>
    rw [takeGetc_char s c hanswer, takeGetc_char (f s) c (by rw [hf.askHost, hanswer]), hf.askHost, hset, hf.setBusy]

theorem takeInEcho (hset : ∀ r v s, (f s).setReg r v = f (s.setReg r v)) (s : State) :
    takeInEcho (f s) = f (takeInEcho s) := by
  cases hanswer : (Machine.askHost s).1 with
  | none =>
    rw [takeInEcho_wait s hanswer, takeInEcho_wait (f s) (by rw [hf.askHost, hanswer]), hf.askHost, hf.setBusy]
  | some c =>
    rw [takeInEcho_char s c hanswer, takeInEcho_char (f s) c (by rw [hf.askHost, hanswer]), hf.askHost, hf.emit, hset,
      hf.setBusy]

end Unseen

/-! ## The flag -/

theorem memRead_withCond (a : Word) (s : State) (c : Cond) :
    memRead a { s with cond := c } = ((memRead a s).1, { (memRead a s).2 with cond := c }) :=
  (unseen_cond c).memRead a s

theorem indirect_withCond (offset9 : BitVec 9) (s : State) (c : Cond) :
    indirect offset9 { s with cond := c } = ((indirect offset9 s).1, { (indirect offset9 s).2 with cond := c }) :=
  memRead_withCond _ s c

theorem loadFrom_withCond (dr : Reg) (ea : Word) (s : State) (c : Cond) :
    loadFrom dr ea { s with cond := c } = loadFrom dr ea s := by
  rw [loadFrom, memRead_withCond]
  rfl

/-- A value-defining instruction overwrites the flag without reading it (R26). -/
theorem exec_withCond_of_defines {i : Instr} {dr : Reg} (hdef : definesOf i = some dr) (s : State) (c : Cond) :
    exec i { s with cond := c } = exec i s := by
  cases i with
  | addReg | addImm | andReg | andImm | not | lea => rfl
  | ld | ldr => exact congrArg Host.Outcome.next (loadFrom_withCond _ _ s c)
  | ldi => simp only [exec, execLdi, indirect_withCond, loadFrom_withCond]
  | br | jmp | ret | jsr | jsrr | nop | st | sti | str => cases hdef
  | trap | getc | out | puts | inEcho | putsp | halt | reserved8 | reserved13 => cases hdef

/-- Every other instruction but BR carries the flag along without reading it (R26). -/
theorem exec_withCond_of_not_defines {i : Instr} (hdef : definesOf i = none) (hbr : isBr i = false) (s : State) (c : Cond) :
    ∃ t, exec i s = .next t ∧ exec i { s with cond := c } = .next { t with cond := c } := by
  have hc := unseen_cond c
  have hgetc := hc.takeGetc (fun _ _ _ => rfl) s
  have hin := hc.takeInEcho (fun _ _ _ => rfl) (s.emit Config.inPrompt)
  have hputs := hc.putsFrom (s.reg .r0) s
  have hputsp := hc.putspFrom (s.reg .r0) s
  cases i with
  | st | str | jmp | ret | jsr | jsrr | reserved8 | reserved13 | out | halt => exact ⟨_, rfl, rfl⟩
  | sti sr offset9 =>
    refine ⟨_, rfl, ?_⟩
    simp only [exec, execSti, indirect_withCond]
    rfl
  | nop offset9 =>
    exact ⟨s, congrArg Host.Outcome.next (branch_none offset9 s), congrArg Host.Outcome.next (branch_none offset9 _)⟩
  | getc => exact ⟨_, rfl, congrArg Host.Outcome.next hgetc⟩
  | puts => exact ⟨_, rfl, congrArg Host.Outcome.next hputs⟩
  | inEcho => exact ⟨_, rfl, congrArg Host.Outcome.next hin⟩
  | putsp => exact ⟨_, rfl, congrArg Host.Outcome.next hputsp⟩
  | trap v =>
    obtain rfl | rfl | rfl | rfl | rfl | rfl | hother := trapVector_cases v
    · exact ⟨_, rfl, congrArg Host.Outcome.next hgetc⟩
    · exact ⟨_, rfl, rfl⟩
    · exact ⟨_, rfl, congrArg Host.Outcome.next hputs⟩
    · exact ⟨_, rfl, congrArg Host.Outcome.next hin⟩
    · exact ⟨_, rfl, congrArg Host.Outcome.next hputsp⟩
    · exact ⟨_, rfl, rfl⟩
    · exact ⟨s, exec_trap_unknown hother s, exec_trap_unknown hother _⟩
  | br => cases hbr
  | addReg | addImm | andReg | andImm | not | lea | ld | ldi | ldr => cases hdef

/-! ## The step of an unfinished string -/

/-- Where the abort cannot fall, an unfinished routine goes on (R183). -/
theorem step_of_string {s : State} {r : Routine} (hrun : s.running = true) (hbusy : s.busy = some r)
    (hstring : abortCanFall (some r) = false) : step s = .next (resume r s) := by
  simp [step, hrun, hbusy, hstring]

/-- An unfinished string goes on as without the abort. -/
theorem resume_withAbort_of_string {r : Routine} (hstring : abortCanFall (some r) = false) (s : State) (b : Bool) :
    resume r { s with abortRequested := b } = { resume r s with abortRequested := b } := by
  cases r with
  | puts a => exact (unseen_abort b).putsFrom a s
  | putsp a => exact (unseen_abort b).putspFrom a s
  | getc | inEcho => cases hstring

/-- The routine with the pointer in R0 does what the walk from the pointer does, R0 itself aside. -/
theorem putsFrom_eq_putsRoutine (a : Word) (s : State) :
    putsFrom a s = { putsRoutine (s.setReg .r0 a) with regs := s.regs } := by
  have hkept : (putsFrom a s).regs = s.regs := (walk_keeps_core putsBytes Config.stringLap a s).1
  have hroutine : putsRoutine (s.setReg .r0 a) = { putsFrom a s with regs := s.regs.set .r0 a } := by
    rw [putsRoutine, State.setReg_reg_same]
    exact (unseen_regs _).putsFrom a s
  rw [hroutine, ← hkept]

theorem putspFrom_eq_putspRoutine (a : Word) (s : State) :
    putspFrom a s = { putspRoutine (s.setReg .r0 a) with regs := s.regs } := by
  have hkept : (putspFrom a s).regs = s.regs := (walk_keeps_core putspBytes Config.stringLap a s).1
  have hroutine : putspRoutine (s.setReg .r0 a) = { putspFrom a s with regs := s.regs.set .r0 a } := by
    rw [putspRoutine, State.setReg_reg_same]
    exact (unseen_regs _).putspFrom a s
  rw [hroutine, ← hkept]

end Sys2Proof.Machine

namespace Sys2Proof.Proofs

open Sys2Proof.Machine

/-- Settles O18: the writers by their last action, the others by the frame, and no reader but BR by the flag's passing through
every operation. -/
theorem condWritersAndReaders : Obligations.CondWritersAndReaders := by
  unfold Obligations.CondWritersAndReaders
  refine ⟨?written, ?kept, ?readers⟩
  case written =>
    intro i dr s hdef
    obtain ⟨v, u, hexec⟩ := exec_ends_with_defineReg i dr s hdef
    exact ⟨defineReg dr v u, hexec, flagSays_defineReg dr v u⟩
  case kept =>
    intro i s hdef
    obtain ⟨t, hexec, _, _, hcond⟩ := exec_frame i s
    exact ⟨t, hexec, hcond hdef⟩
  case readers =>
    intro i s c hbr
    cases hdef : definesOf i with
    | none =>
      obtain ⟨t, hexec, hother⟩ := exec_withCond_of_not_defines hdef hbr s c
      exact ⟨t, _, hexec, hother, rfl, fun h => absurd rfl h⟩
    | some dr =>
      obtain ⟨t, hexec, _⟩ := exec_frame i s
      exact ⟨t, t, hexec, (exec_withCond_of_defines hdef s c).trans hexec, rfl, fun _ => rfl⟩

/-- Settles O9: between steps and in a wait the abort is the fault, and a string does not see it. -/
theorem abortEndsTheRun : Obligations.AbortEndsTheRun := by
  unfold Obligations.AbortEndsTheRun
  intro s hrun
  constructor
  · rintro habort (hbusy | hbusy | hbusy) <;> simp [step, hrun, habort, hbusy, abortCanFall]
  · intro a hbusy
    obtain ⟨r, hr, hstring⟩ : ∃ r, s.busy = some r ∧ abortCanFall (some r) = false := by
      obtain hputs | hputsp := hbusy
      · exact ⟨_, hputs, rfl⟩
      · exact ⟨_, hputsp, rfl⟩
    have hflipped : step { s with abortRequested := !s.abortRequested } = .next (resume r _) :=
      step_of_string hrun hr hstring
    exact ⟨resume r s, step_of_string hrun hr hstring,
      hflipped.trans (congrArg Host.Outcome.next (resume_withAbort_of_string hstring s _))⟩

/-- Settles O47: the walk does not see the registers, so it goes from the pointer as it does from R0. -/
theorem unfinishedStringGoesOnFromItsPointer : Obligations.UnfinishedStringGoesOnFromItsPointer := by
  unfold Obligations.UnfinishedStringGoesOnFromItsPointer
  intro s a hrun
  constructor
  · intro hbusy
    exact ⟨putsFrom a s, _, step_of_string hrun hbusy rfl, rfl, putsFrom_eq_putsRoutine a s⟩
  · intro hbusy
    exact ⟨putspFrom a s, _, step_of_string hrun hbusy rfl, rfl, putspFrom_eq_putspRoutine a s⟩

end Sys2Proof.Proofs
end

section
/-! PROOFS. The canonical memory and the boot (spec/10_state.md R28, R39; 70_reset_and_hazards.md R211 to R214; log entry 23). Two
canonical lists that read alike are compared from their lowest addresses on; the load is one write after another, each of
which keeps the canonical form. -/

namespace Sys2Proof.Machine

/-! ## Equal reads make equal memories -/

/-- Below its lowest address a canonical list reads as unlisted. -/
theorem Memory.readCells_below {lo k : Nat} {cells : List Cell} (h : Memory.cellsWf lo cells = true) (hk : k < lo) :
    Memory.readCells cells k = Memory.unlisted := by
  induction cells generalizing lo with
  | nil => rfl
  | cons c rest ih =>
    obtain ⟨a, v⟩ := c
    obtain ⟨hlo, _, _, hrest⟩ := (Memory.cellsWf_cons lo a v rest).mp h
    rw [Memory.readCells, if_neg (by omega)]
    exact ih hrest (by omega)

theorem Memory.readCells_head (a : Nat) (v : Word) (rest : List Cell) : Memory.readCells ((a, v) :: rest) a = v := by
  rw [Memory.readCells, if_pos rfl]

/-- A canonical list that reads like one with a word at `a` begins no higher than `a`: below its beginning it reads as unlisted. -/
theorem Memory.head_le_of_readCells_eq {a : Nat} {v : Word} {rest cells : List Cell} (ha : a < 65536)
    (hv : v ≠ Memory.unlisted) (hread : ∀ k < 65536, Memory.readCells ((a, v) :: rest) k = Memory.readCells cells k) {lo : Nat}
    (hcells : Memory.cellsWf lo cells = true) : lo ≤ a := by
  by_contra hbelow
  have hhead := hread a ha
  rw [Memory.readCells_head, Memory.readCells_below hcells (by omega)] at hhead
  exact hv hhead

/-- The two heads are at one address, since neither list can begin above the other's; then their words and tails read alike. -/
theorem Memory.cells_eq_of_readCells_eq {lo lo' : Nat} {cells cells' : List Cell} (h : Memory.cellsWf lo cells = true)
    (h' : Memory.cellsWf lo' cells' = true)
    (hread : ∀ k < 65536, Memory.readCells cells k = Memory.readCells cells' k) : cells = cells' := by
  induction cells generalizing lo lo' cells' with
  | nil =>
    cases cells' with
    | nil => rfl
    | cons c' rest' =>
      obtain ⟨a', v'⟩ := c'
      obtain ⟨_, ha', hv', _⟩ := (Memory.cellsWf_cons lo' a' v' rest').mp h'
      exact absurd ((Memory.readCells_head a' v' rest').symm.trans (hread a' ha').symm) hv'
  | cons c rest ih =>
    obtain ⟨a, v⟩ := c
    obtain ⟨_, ha, hv, hrest⟩ := (Memory.cellsWf_cons lo a v rest).mp h
    cases cells' with
    | nil => exact absurd ((Memory.readCells_head a v rest).symm.trans (hread a ha)) hv
    | cons c' rest' =>
      obtain ⟨a', v'⟩ := c'
      obtain ⟨_, ha', hv', hrest'⟩ := (Memory.cellsWf_cons lo' a' v' rest').mp h'
      have hsame : a = a' := by
        apply Nat.le_antisymm
        · exact Memory.head_le_of_readCells_eq ha' hv' (fun k hk => (hread k hk).symm)
            ((Memory.cellsWf_cons a a v rest).mpr ⟨le_rfl, ha, hv, hrest⟩)
        · exact Memory.head_le_of_readCells_eq ha hv hread
            ((Memory.cellsWf_cons a' a' v' rest').mpr ⟨le_rfl, ha', hv', hrest'⟩)
      subst hsame
      have hword : v = v' := by simpa [Memory.readCells_head] using hread a ha
      have htail : ∀ k < 65536, Memory.readCells rest k = Memory.readCells rest' k := by
        intro k hk
        by_cases hka : k = a
        · rw [Memory.readCells_below hrest (by omega), Memory.readCells_below hrest' (by omega)]
        · simpa [Memory.readCells, hka] using hread k hk
      rw [hword, ih hrest hrest' htail]

/-! ## The load -/

theorem placeWords_keeps_wf (start : Nat) (ws : List Word) (m : Memory) (h : m.wf = true) :
    (placeWords start ws m).wf = true := by
  induction ws generalizing start m with
  | nil => exact h
  | cons w ws ih =>
    rw [placeWords]
    split
    next => exact ih _ _ (Memory.wf_write m _ w h)
    next => exact h

theorem loadImage_wf (bytes : List Byte) : (loadImage bytes).wf = true := by
  unfold loadImage
  split
  next => exact Memory.wf_empty
  next => exact placeWords_keeps_wf _ _ _ Memory.wf_empty

/-- An image of fewer than two bytes has no word, so nothing is loaded (R213). -/
theorem loadImage_of_short {bytes : List Byte} (h : bytes.length < 2) : loadImage bytes = { cells := [] } := by
  have hnone : imageWords bytes = [] := by
    rw [← List.length_eq_zero_iff, length_imageWords]
    omega
  rw [loadImage, hnone]

end Sys2Proof.Machine

namespace Sys2Proof.Proofs

open Sys2Proof.Machine

/-- Settles O55: the lists of cells are equal. -/
theorem canonicalMemoriesThatReadAlikeAreEqual : Obligations.CanonicalMemoriesThatReadAlikeAreEqual := by
  unfold Obligations.CanonicalMemoriesThatReadAlikeAreEqual
  rintro ⟨cells⟩ ⟨cells'⟩ hwf hwf' hread
  refine congrArg Memory.mk (Memory.cells_eq_of_readCells_eq hwf hwf' fun k hk => ?_)
  simpa [Memory.read, Nat.mod_eq_of_lt hk] using hread (BitVec.ofNat 16 k)

/-- Settles O53: the load keeps the canonical form, and the machine runs. -/
theorem everyBootMeetsTheInvariant : Obligations.EveryBootMeetsTheInvariant := by
  unfold Obligations.EveryBootMeetsTheInvariant
  exact fun bytes => ⟨loadImage_wf bytes, nofun⟩

/-- Settles O52: the empty list is canonical, and the machine runs. -/
theorem resetMeetsTheInvariant : Obligations.ResetMeetsTheInvariant := by
  unfold Obligations.ResetMeetsTheInvariant
  exact ⟨Memory.wf_empty, nofun⟩

/-- Settles O57: what a read answers after the words have been placed in empty memory. -/
theorem loadPlacesThePayloadAtTheOrigin : Obligations.LoadPlacesThePayloadAtTheOrigin := by
  unfold Obligations.LoadPlacesThePayloadAtTheOrigin
  intro bytes origin payload himage a
  rw [loadImage_of_imageWords_cons himage, placeWords_read, Memory.read_empty]

/-- Settles O58: a boot is the reset state but for memory. -/
theorem bootStartsAtTheFixedAddress : Obligations.BootStartsAtTheFixedAddress := by
  unfold Obligations.BootStartsAtTheFixedAddress
  intro bytes
  refine ⟨rfl, rfl, rfl, rfl, fun r => by cases r <;> rfl, fun hshort a => ?_⟩
  exact congrArg (Memory.read · a) (loadImage_of_short hshort)

end Sys2Proof.Proofs
end
